-- ==== Sys2Proof/Word.lean ====
section
/-!
DEFINITION. The value types of the block: bytes, pulse widths, the numeric domain `NUM` (R80), the
decoder's state names (R11), its scratch buffer (R12), channel indices (R152) and the pair of setpoint values (R13).
The arithmetic of `NUM` is in `Sys2Proof.Machine.Num`.
-/

namespace Sys2Proof

/-- A byte of the serial stream (R6). -/
abbrev Byte := BitVec 8

/-- A pulse width as the Actuation Layer holds it: an unsigned 16-bit integer (R22). -/
abbrev Width := BitVec 16

/-- The formats `NUM` may be (R80, R81): the three that R81 names as admissible.
`binary32` is the one this hardware takes. -/
inductive NumFormat
  | binary32
  | binary64
  | exact
  deriving DecidableEq, Repr

/-- A value of `NUM` (R80, R81): a finite number, held exactly as the rational it stands for, an
infinity, or NaN. In `fin q minus` the flag `minus` is the sign of a ZERO: it is `true` only in the
value `-0` (`Num.isValue`). The payload of a NaN is not held: no rule reads it (log entry 6). -/
inductive Num
  | fin (q : Rat) (minus : Bool)
  | inf (minus : Bool)
  | nan
  deriving DecidableEq, Repr

/-- The finite number `q`, and `+0` for 0. -/
abbrev Num.of (q : Rat) : Num := .fin q false

/-- The seven states of the frame decoder, named as R11 names them. -/
inductive Fsm
  | waitSync1
  | b0
  | b1
  | b2
  | b3
  | b4
  | waitSync2
  deriving DecidableEq, Repr

/-- The five-byte scratch buffer `scratch[0..4]` (R12): X_hi, X_lo, Y_hi, Y_lo, checksum. -/
structure Scratch where
  s0 : Byte
  s1 : Byte
  s2 : Byte
  s3 : Byte
  s4 : Byte
  deriving DecidableEq, Repr

/-- The two coordinates of a frame, and so the two setpoint accumulators (R13). -/
inductive Axis
  | x
  | y
  deriving DecidableEq, Repr

/-- A channel index (R6, R152): one of the channels of a bank of `nch`. It is a bounded type: no index
outside its bank can be written down. The bank's size is part of it because `NCH` is a parameter of the
machine (R5). -/
structure ChannelId where
  nch : Nat
  index : Fin nch
  deriving DecidableEq, Repr

/-- The spec's number of the channel in position `i` of a bank: channels are numbered from 1 (R6). -/
def channelNumber {n : Nat} (i : Fin n) : Nat := i.val + 1

/-- Every channel of a bank of `n`, in ascending order (R92). -/
def allChannels (n : Nat) : List ChannelId := (List.finRange n).map (ChannelId.mk n)

/-- A pair of setpoint values `(acc[X], acc[Y])` (R13, R36). -/
structure Setpoints where
  x : Num
  y : Num
  deriving DecidableEq, Repr

/-- `snap[SP_SEL(c)]`: the element of the pair that `a` names (R91). -/
def Setpoints.get (p : Setpoints) : Axis → Num
  | .x => p.x
  | .y => p.y

end Sys2Proof
end

