-- ==== Sys2Proof/Config.lean ====
section
/-!
DEFINITION. What is fixed before reset and constant afterwards (R5, R23, R141), the constants of the
wire protocol and of the control law, and the free values of the model.
-/

namespace Sys2Proof

/-- What the configuration gives one channel (R5): the accumulator it reads, and its three gains. -/
structure ChannelConfig where
  /-- `SP_SEL(c)`. -/
  spSel : Axis
  /-- `GAIN_P(c)`. -/
  gainP : Num
  /-- `GAIN_I(c)`. -/
  gainI : Num
  /-- `GAIN_D(c)`. -/
  gainD : Num
  deriving DecidableEq, Repr

/-- The open parameters of R5. `NCH` is the number of entries of `channels` (`Config.nch`). -/
structure Config where
  /-- `SP_SEL(c)` and the gains of channel `c`, channel 1 first. -/
  channels : List ChannelConfig
  /-- `PW_MIN`. -/
  pwMin : Nat
  /-- `PW_MAX`. -/
  pwMax : Nat
  /-- `POS_RESET`. -/
  posReset : Num
  /-- `SP_RESET`. -/
  spReset : Num
  /-- `INTEGRAL_LIMIT`: `none`, or the limit `L` of R84. -/
  integralLimit : Option Num
  /-- `NUM`: the format of every floating-point value (R80). -/
  format : NumFormat
  deriving DecidableEq, Repr

/-- `NCH`, the number of channels (R5). -/
def Config.nch (cfg : Config) : Nat := cfg.channels.length

/-- The configuration of a channel of the bank. -/
def Config.channel (cfg : Config) (c : Fin cfg.nch) : ChannelConfig := cfg.channels[c.val]'c.isLt

/-- `SYNC`, the sync byte (R5, R45). -/
def Config.sync : Byte := 0xAA#8

/-- `TERM`, the terminator byte (R5, R45). -/
def Config.term : Byte := 0x55#8

/-- `FRAME_LEN` (R5). -/
def Config.frameLen : Nat := 7

/-- `PID_DIV`, the divisor of the PID output (R5, R82). -/
def Config.pidDiv : Int := 100

/-- The gains of the default configuration. DESIGN CHOICE (log entry 2): no source gives gains; these
are the numbers of the source's Scenario C. -/
def Config.scenarioGains (a : Axis) : ChannelConfig :=
  { spSel := a, gainP := .of (mkRat 5 2), gainI := .of 0, gainD := .of 15 }

/-- The default values of R5: two channels, channel 1 on X and channel 2 on Y, range [2000, 4000],
both reset values 3000, no integral limit, binary32. -/
def Config.default : Config :=
  { channels := [Config.scenarioGains .x, Config.scenarioGains .y]
    pwMin := 2000
    pwMax := 4000
    posReset := .of 3000
    spReset := .of 3000
    integralLimit := none
    format := .binary32 }

/-- The four arithmetic operations of `NUM`, as arguments of the free value below. -/
inductive ArithOp
  | add
  | sub
  | mul
  | div
  deriving DecidableEq, Repr

/-- FREE VALUE (log entry 5): the sign of a zero result of an arithmetic operation on these operands
(`93_implementation_defined.md` U19: any value between `+0` and `-0`). A function of the operation and
its operands alone, as R80 asks. -/
opaque Config.zeroSign : ArithOp → Num → Num → Bool

/-- FREE VALUE (log entry 3): the bytes that a `RESET` event leaves in `scratch` (R136, U9), one fresh
byte for each value of the counter `State.free`. -/
opaque Config.freeByte : Nat → Byte

end Sys2Proof
end

