-- ==== Sys2Proof/Machine/Flags.lean ====
section
/-!
DEFINITION. The block has no flags and no condition codes (R24): each comparison is consumed inside
the operation that makes it. The one condition that selects an operation, the checksum's validity, is
computed here (R48, R70).
-/

namespace Sys2Proof.Machine

/-- The checksum of four payload bytes: their sum modulo 256 (R48, R70). -/
def csum (b0 b1 b2 b3 : Byte) : Byte :=
  BitVec.ofNat 8 (b0.toNat + b1.toNat + b2.toNat + b3.toNat)

/-- The checksum of the frame in the scratch buffer is valid (R48). -/
def checksumValid (k : Scratch) : Bool :=
  k.s4 == csum k.s0 k.s1 k.s2 k.s3

end Sys2Proof.Machine
end

