-- ==== Sys2Proof/Machine/Operands.lean ====
section
/-!
DEFINITION. The operand forms of the frame: big-endian assembly of the 16-bit words, the
sign-magnitude decode (R49, R71), and the sender's side of both (R57).
-/

namespace Sys2Proof.Machine

/-- `(hi << 8) | lo`, the 16-bit word of two bytes, high byte first (R33, R49). -/
def word16 (hi lo : Byte) : Nat := 256 * hi.toNat + lo.toNat

/-- The sign-magnitude value of a 16-bit word: bit 15 set negates bits 14:0 (R49, R71). -/
def sm16 (raw : Nat) : Int :=
  if 32768 ≤ raw then -((raw : Int) - 32768) else raw

/-- `enc16(v)`, the sender's encoding of a displacement in [-32767, 32767] (R57). -/
def enc16 (v : Int) : Nat :=
  if v < 0 then 32768 + v.natAbs else v.natAbs

/-- Bits 15:8 of a 16-bit word. -/
def hiByte (v : Nat) : Byte := BitVec.ofNat 8 (v / 256)

/-- Bits 7:0 of a 16-bit word. -/
def loByte (v : Nat) : Byte := BitVec.ofNat 8 v

/-- The seven bytes of a frame with these payload and checksum bytes, first byte first (R45, R46). -/
def frame7Bytes (xHi xLo yHi yLo cs : Byte) : List Byte :=
  [Config.sync, xHi, xLo, yHi, yLo, cs, Config.term]

/-- `frame(dx, dy)`, the canonical frame of a displacement (R57). -/
def frameBytes (dx dy : Int) : List Byte :=
  frame7Bytes (hiByte (enc16 dx)) (loByte (enc16 dx)) (hiByte (enc16 dy)) (loByte (enc16 dy))
    (csum (hiByte (enc16 dx)) (loByte (enc16 dx)) (hiByte (enc16 dy)) (loByte (enc16 dy)))

/-- `dx` of the frame in the scratch buffer (R67). -/
def scratchDx (k : Scratch) : Int := sm16 (word16 k.s0 k.s1)

/-- `dy` of the frame in the scratch buffer (R67). -/
def scratchDy (k : Scratch) : Int := sm16 (word16 k.s2 k.s3)

end Sys2Proof.Machine
end

