-- ==== Sys2Proof/Syntax.lean ====
section
/-!
DEFINITION. The events a collaborator delivers (R8) and the operations of the block, one constructor
for each row of `opcode_table.json` (R51).
-/

namespace Sys2Proof

/-- An event (R8): what the environment delivers to the block. -/
inductive Event
  /-- One received byte (R121). -/
  | rx (b : Byte)
  /-- One control tick (R122). -/
  | tick
  /-- The display collaborator's read (R110). -/
  | snap
  /-- System start (R135). -/
  | reset
  deriving DecidableEq, Repr

/-- The 16 operations of R51, and the whole-frame pattern `FRAME7`. An operation that an `RX` event
selects by one byte value alone (`0xAA` or `0x55`) carries no operand; the others carry the byte. -/
inductive Instr
  /-- `RX.WS1.SYNC` (R60). -/
  | rxWs1Sync
  /-- `RX.WS1.SKIP` (R61). -/
  | rxWs1Skip (b : Byte)
  /-- `RX.B0` (R62): `b` is X_hi. -/
  | rxB0 (b : Byte)
  /-- `RX.B1` (R63): `b` is X_lo. -/
  | rxB1 (b : Byte)
  /-- `RX.B2` (R64): `b` is Y_hi. -/
  | rxB2 (b : Byte)
  /-- `RX.B3` (R65): `b` is Y_lo. -/
  | rxB3 (b : Byte)
  /-- `RX.B4` (R66): `b` is the checksum byte. -/
  | rxB4 (b : Byte)
  /-- `RX.WS2.COMMIT` (R67). -/
  | rxWs2Commit
  /-- `RX.WS2.BADSUM` (R68). -/
  | rxWs2Badsum
  /-- `RX.WS2.ABORT` (R69). -/
  | rxWs2Abort (b : Byte)
  /-- `PID.COMPUTE` (R83): channel of the bank, target, current. -/
  | pidCompute (c : ChannelId) (target current : Num)
  /-- `TICK` (R90). -/
  | tick
  /-- `CH.STEP` (R94): channel of the bank, and the tick's setpoint snapshot. -/
  | chStep (c : ChannelId) (snap : Setpoints)
  /-- `SET_PULSE` (R105): channel index and width, any integers. -/
  | setPulse (ch w : Int)
  /-- `SNAP` (R110). -/
  | snap
  /-- `RESET` (R135). -/
  | reset
  /-- `FRAME7` (R46, R74): the bytes at offsets 1 to 5 of a whole frame. -/
  | frame7 (xHi xLo yHi yLo csum : Byte)
  deriving DecidableEq, Repr

end Sys2Proof
end

