-- ==== Sys2Proof/Decode.lean ====
section
/-!
DEFINITION. Decoding. The block decodes one byte at a time against the decoder's state (R47): that
map is total and rejects nothing. A whole frame (R46) is recognised from its seven bytes, and what is
not a frame is rejected by name. After the decoders stand the encoder, the opcode table's rows with
their match, mask and priority (R59), and the host's view of a table word.
-/

namespace Sys2Proof

/-- The operation that the byte `b` selects in the state `fsm` with this scratch buffer (R47). -/
def decodeByte (fsm : Fsm) (scratch : Scratch) (b : Byte) : Instr :=
  match fsm with
  | .waitSync1 => if b = Config.sync then .rxWs1Sync else .rxWs1Skip b
  | .b0 => .rxB0 b
  | .b1 => .rxB1 b
  | .b2 => .rxB2 b
  | .b3 => .rxB3 b
  | .b4 => .rxB4 b
  | .waitSync2 =>
    if b = Config.term then
      (if Machine.checksumValid scratch then .rxWs2Commit else .rxWs2Badsum)
    else .rxWs2Abort b

/-- The operation that an event selects (R51): a byte through `decodeByte`, the others by
themselves. -/
def decodeEvent (fsm : Fsm) (scratch : Scratch) : Event → Instr
  | .rx b => decodeByte fsm scratch b
  | .tick => .tick
  | .snap => .snap
  | .reset => .reset

/-- Why seven bytes are not a frame (R46). -/
inductive FrameReject
  /-- Fewer than seven bytes. -/
  | tooShort
  /-- The first byte is not the sync byte. -/
  | badSync
  /-- The seventh byte is not the terminator. -/
  | badTerm
  /-- The checksum byte is not the checksum of the payload. -/
  | badSum
  deriving DecidableEq, Repr

/-- What the recogniser of whole frames answers: a frame and the bytes after it, or why not. -/
inductive FrameDecoded
  | frame (i : Instr) (rest : List Byte)
  | rejected (why : FrameReject)
  deriving DecidableEq, Repr

/-- Recognise a whole frame at the head of a byte string (R46, R51 row 17). The terminator is looked
at before the checksum (R118). -/
def decodeFrame : List Byte → FrameDecoded
  | sync :: xHi :: xLo :: yHi :: yLo :: cs :: term :: rest =>
    if sync ≠ Config.sync then .rejected .badSync
    else if term ≠ Config.term then .rejected .badTerm
    else if cs ≠ Machine.csum xHi xLo yHi yLo then .rejected .badSum
    else .frame (.frame7 xHi xLo yHi yLo cs) rest
  | _ => .rejected .tooShort

/-- The bytes on the wire of an operation; none for the operations that have no encoding (R51). -/
def encode : Instr → List Byte
  | .rxWs1Sync => [Config.sync]
  | .rxWs1Skip b => [b]
  | .rxB0 b => [b]
  | .rxB1 b => [b]
  | .rxB2 b => [b]
  | .rxB3 b => [b]
  | .rxB4 b => [b]
  | .rxWs2Commit => [Config.term]
  | .rxWs2Badsum => [Config.term]
  | .rxWs2Abort b => [b]
  | .pidCompute _ _ _ => []
  | .tick => []
  | .chStep _ _ => []
  | .setPulse _ _ => []
  | .snap => []
  | .reset => []
  | .frame7 xHi xLo yHi yLo cs => Machine.frame7Bytes xHi xLo yHi yLo cs

/-- The decoder state in which a byte selects this operation (R47), where there is one. -/
def Instr.inState : Instr → Option Fsm
  | .rxWs1Sync => some .waitSync1
  | .rxWs1Skip _ => some .waitSync1
  | .rxB0 _ => some .b0
  | .rxB1 _ => some .b1
  | .rxB2 _ => some .b2
  | .rxB3 _ => some .b3
  | .rxB4 _ => some .b4
  | .rxWs2Commit => some .waitSync2
  | .rxWs2Badsum => some .waitSync2
  | .rxWs2Abort _ => some .waitSync2
  | .pidCompute _ _ _ => none
  | .tick => none
  | .chStep _ _ => none
  | .setPulse _ _ => none
  | .snap => none
  | .reset => none
  | .frame7 _ _ _ _ _ => none

/-- What the operation asks of the scratch buffer beside its byte (the table's "condition"). -/
def Instr.sumCondition (k : Scratch) : Instr → Bool
  | .rxWs2Commit => Machine.checksumValid k
  | .rxWs2Badsum => !Machine.checksumValid k
  | _ => true

/-- A per-byte row of the opcode table (R59). `sum` is the checksum's validity that the row's
"condition" asks for, where it has one. -/
structure ByteRow where
  mnemonic : String
  state : Fsm
  mask : Byte
  pattern : Byte
  priority : Nat
  sum : Option Bool
  next : Fsm
  deriving DecidableEq, Repr

/-- The ten per-byte rows of `opcode_table.json`, written out from it (R51 rows 1 to 10, R59). -/
def byteRows : List ByteRow :=
  [ ⟨"RX.WS1.SYNC", .waitSync1, 0xFF#8, 0xAA#8, 1, none, .b0⟩,
    ⟨"RX.WS1.SKIP", .waitSync1, 0x00#8, 0x00#8, 2, none, .waitSync1⟩,
    ⟨"RX.B0", .b0, 0x00#8, 0x00#8, 1, none, .b1⟩,
    ⟨"RX.B1", .b1, 0x00#8, 0x00#8, 1, none, .b2⟩,
    ⟨"RX.B2", .b2, 0x00#8, 0x00#8, 1, none, .b3⟩,
    ⟨"RX.B3", .b3, 0x00#8, 0x00#8, 1, none, .b4⟩,
    ⟨"RX.B4", .b4, 0x00#8, 0x00#8, 1, none, .waitSync2⟩,
    ⟨"RX.WS2.COMMIT", .waitSync2, 0xFF#8, 0x55#8, 1, some true, .waitSync1⟩,
    ⟨"RX.WS2.BADSUM", .waitSync2, 0xFF#8, 0x55#8, 2, some false, .waitSync1⟩,
    ⟨"RX.WS2.ABORT", .waitSync2, 0x00#8, 0x00#8, 3, none, .waitSync1⟩ ]

/-- The row's match holds for this state, scratch buffer and byte (R59). -/
def ByteRow.holds (r : ByteRow) (fsm : Fsm) (k : Scratch) (b : Byte) : Bool :=
  r.state == fsm && (b &&& r.mask) == r.pattern
    && (match r.sum with
        | none => true
        | some v => Machine.checksumValid k == v)

/-- The row's mnemonic, letter for letter as the table has it. -/
def Instr.mnemonic : Instr → String
  | .rxWs1Sync => "RX.WS1.SYNC"
  | .rxWs1Skip _ => "RX.WS1.SKIP"
  | .rxB0 _ => "RX.B0"
  | .rxB1 _ => "RX.B1"
  | .rxB2 _ => "RX.B2"
  | .rxB3 _ => "RX.B3"
  | .rxB4 _ => "RX.B4"
  | .rxWs2Commit => "RX.WS2.COMMIT"
  | .rxWs2Badsum => "RX.WS2.BADSUM"
  | .rxWs2Abort _ => "RX.WS2.ABORT"
  | .pidCompute _ _ _ => "PID.COMPUTE"
  | .tick => "TICK"
  | .chStep _ _ => "CH.STEP"
  | .setPulse _ _ => "SET_PULSE"
  | .snap => "SNAP"
  | .reset => "RESET"
  | .frame7 _ _ _ _ _ => "FRAME7"

/-- The `n` bytes of a table word, first byte first. The table numbers the bits of a whole frame with
byte 0 in its most significant byte (R46). -/
def wordBytes : Nat → Nat → List Byte
  | 0, _ => []
  | n + 1, w => BitVec.ofNat 8 (w / 256 ^ n) :: wordBytes n w

/-- The instruction that the decoder reads from a table word of `nbits` bits. A byte has a meaning
only against the decoder's state (R47): this is the reading in the state after reset, `WaitSync1`
(log entry 9). 56 bits are read as a whole frame. -/
def decodeTableWord (nbits w : Nat) : Option Instr :=
  if nbits = 8 then
    some (decodeByte .waitSync1 ⟨0#8, 0#8, 0#8, 0#8, 0#8⟩ (BitVec.ofNat 8 w))
  else if nbits = 56 then
    match decodeFrame (wordBytes 7 w) with
    | .frame i _ => some i
    | .rejected _ => none
  else none

end Sys2Proof
end

