-- ==== Sys2Proof/Machine/Num.lean ====
section
/-!
DEFINITION. The arithmetic of `NUM` (R80, R81): each operation is computed exactly on rationals and
the exact result is then rounded once to the format, to nearest, ties to even. The exact operations
are written on numerator and denominator, so that they can be evaluated.
-/

namespace Sys2Proof.Machine

/-- The exact sum. -/
def addQ (a b : Rat) : Rat := mkRat (a.num * b.den + b.num * a.den) (a.den * b.den)

/-- The exact difference. -/
def subQ (a b : Rat) : Rat := mkRat (a.num * b.den - b.num * a.den) (a.den * b.den)

/-- The exact product. -/
def mulQ (a b : Rat) : Rat := mkRat (a.num * b.num) (a.den * b.den)

/-- The exact quotient, for `b ≠ 0`. -/
def divQ (a b : Rat) : Rat := Rat.divInt (a.num * b.den) (a.den * b.num)

/-- The order of the reals. -/
def ltQ (a b : Rat) : Bool := decide (a.num * b.den < b.num * a.den)

/-- The number of significand bits of a binary format. -/
def significandBits : NumFormat → Nat
  | .binary64 => 53
  | _ => 24

/-- The exponent of the smallest positive value of a binary format. -/
def minExponent : NumFormat → Int
  | .binary64 => -1074
  | _ => -149

/-- Every finite value of a binary format is below 2 to this power. -/
def overflowExponent : NumFormat → Nat
  | .binary64 => 1024
  | _ => 128

/-- The `e` with `2^e ≤ n/d < 2^(e+1)`, for positive `n` and `d`. -/
def floorLog2 (n d : Nat) : Int :=
  let e : Int := (n.log2 : Int) - d.log2
  if d * 2 ^ e.toNat ≤ n * 2 ^ (-e).toNat then e else e - 1

/-- The exponent of one unit in the last place of the magnitude `n/d`. -/
def ulpExponent (f : NumFormat) (n d : Nat) : Int :=
  max (floorLog2 n d - (significandBits f - 1 : Nat)) (minExponent f)

/-- `n/d` rounded to the nearest natural number, ties to even. -/
def roundHalfEven (n d : Nat) : Nat :=
  let r := n % d
  if 2 * r < d ∨ (2 * r = d ∧ n / d % 2 = 0) then n / d else n / d + 1

/-- `m * 2^u`. -/
def scale2 (m : Int) (u : Int) : Rat := mkRat (m * 2 ^ u.toNat) (2 ^ (-u).toNat)

/-- The magnitude `n/d` rounded to nearest even in units of its last place, as a count of units. -/
def roundedUnits (f : NumFormat) (n d : Nat) : Nat :=
  let u := ulpExponent f n d
  roundHalfEven (n * 2 ^ (-u).toNat) (d * 2 ^ u.toNat)

/-- The value of a binary format nearest to `q`, ties to even, were there no largest exponent. -/
def roundUnbounded (f : NumFormat) (q : Rat) : Rat :=
  scale2 (if q.num < 0 then -roundedUnits f q.num.natAbs q.den else roundedUnits f q.num.natAbs q.den)
    (ulpExponent f q.num.natAbs q.den)

/-- `q` is below the overflow threshold of a binary format in magnitude. -/
def inRange (f : NumFormat) (q : Rat) : Bool := decide (q.num.natAbs < 2 ^ overflowExponent f * q.den)

/-- `q` rounded once to the format; `none` where the rounded magnitude overflows it. -/
def roundQ (f : NumFormat) (q : Rat) : Option Rat :=
  match f with
  | .exact => some q
  | _ => let r := roundUnbounded f q
    if inRange f r then some r else none

/-- The finite number `q` is a value of the format. -/
def isFiniteValue (f : NumFormat) (q : Rat) : Bool := roundQ f q == some q

/-- The format has a signed zero, infinities and NaN: the binary formats have, exact rationals do not
(R81). -/
def hasSpecials : NumFormat → Bool
  | .exact => false
  | _ => true

/-- The value `v` is a value of the format; `-0` is the one value whose `minus` flag is set (R81). -/
def isValue (f : NumFormat) : Num → Bool
  | .fin q minus => isFiniteValue f q && (!minus || (decide (q = 0) && hasSpecials f))
  | .inf _ => hasSpecials f
  | .nan => hasSpecials f

/-- The value is finite. -/
def isFinite : Num → Bool
  | .fin _ _ => true
  | _ => false

/-- The exact result `q` of an operation, rounded to the format; a zero takes the sign `zs`. Overflow
gives the infinity of the sign of `q`. -/
def pack (f : NumFormat) (q : Rat) (zs : Bool) : Num :=
  match roundQ f q with
  | none => .inf (decide (q.num < 0))
  | some r => .fin r (decide (r = 0) && zs && hasSpecials f)

/-- The sign of a value that is not NaN, `true` for minus. -/
def signOf : Num → Bool
  | .fin q minus => decide (q.num < 0) || (decide (q = 0) && minus)
  | .inf minus => minus
  | .nan => false

/-- `fadd` (R80). -/
def fadd (f : NumFormat) (a b : Num) : Num :=
  match a, b with
  | .nan, _ => .nan
  | _, .nan => .nan
  | .inf s, .inf t => if s = t then .inf s else .nan
  | .inf s, .fin _ _ => .inf s
  | .fin _ _, .inf t => .inf t
  | .fin x _, .fin y _ => pack f (addQ x y) (Config.zeroSign .add a b)

/-- `fsub` (R80). -/
def fsub (f : NumFormat) (a b : Num) : Num :=
  match a, b with
  | .nan, _ => .nan
  | _, .nan => .nan
  | .inf s, .inf t => if s = t then .nan else .inf s
  | .inf s, .fin _ _ => .inf s
  | .fin _ _, .inf t => .inf (!t)
  | .fin x _, .fin y _ => pack f (subQ x y) (Config.zeroSign .sub a b)

/-- `fmul` (R80); an infinity times a zero is NaN. -/
def fmul (f : NumFormat) (a b : Num) : Num :=
  match a, b with
  | .nan, _ => .nan
  | _, .nan => .nan
  | .fin x _, .fin y _ => pack f (mulQ x y) (Config.zeroSign .mul a b)
  | .inf s, .inf t => .inf (s != t)
  | .inf s, .fin y _ => if y = 0 then .nan else .inf (s != decide (y.num < 0))
  | .fin x _, .inf t => if x = 0 then .nan else .inf (t != decide (x.num < 0))

/-- `fdiv` (R80). The block's one division is by 100 (R97); a division by zero follows IEEE 754. -/
def fdiv (f : NumFormat) (a b : Num) : Num :=
  match a, b with
  | .nan, _ => .nan
  | _, .nan => .nan
  | .inf _, .inf _ => .nan
  | .inf s, .fin _ _ => .inf (s != signOf b)
  | .fin _ _, .inf _ => .fin 0 (Config.zeroSign .div a b && hasSpecials f)
  | .fin x _, .fin y _ =>
    if y = 0 then (if x = 0 then .nan else .inf (signOf a != signOf b))
    else pack f (divQ x y) (Config.zeroSign .div a b)

/-- `of_int` (R80): the integer, rounded to the format. -/
def ofInt (f : NumFormat) (n : Int) : Num := pack f (n : Rat) false

/-- `flt`, the ordered "less than": false when either is NaN (R80). The two zeros are equal. -/
def flt (a b : Num) : Bool :=
  match a, b with
  | .nan, _ => false
  | _, .nan => false
  | .fin x _, .fin y _ => ltQ x y
  | .inf s, .inf t => s && !t
  | .inf s, .fin _ _ => s
  | .fin _ _, .inf t => !t

/-- `trunc` (R80): the integer part, rounding toward zero; undefined on NaN and the infinities. -/
def trunc : Num → Option Int
  | .fin q _ => some (q.num.tdiv q.den)
  | _ => none

end Sys2Proof.Machine
end

