-- ==== Sys2Proof/Machine/State.lean ====
section
/-!
DEFINITION. The state of the block (R10), the machine that a step runs on, the reasons a step may stop,
and the state after reset (R28, R135).
-/

namespace Sys2Proof.Machine

/-- Why the machine stops. -/
inductive Fault
  /-- Raised by `CH.STEP`, and so by `TICK`, when the position to be cast to a width is NaN (R96, U5).
  The spec asks for it. Safe: no width is chosen. -/
  | nanAtCast
  deriving DecidableEq, Repr

/-- Why an operation has no meaning here. -/
inductive Refusal
  /-- Raised by `exec` for an instruction without a meaning; no arm does. Safe. -/
  | notModelled (mnemonic : String)
  /-- Raised by `PID.COMPUTE` and `CH.STEP` for an index of a bank of another size than this one, which
  is no operand of this machine (R83, R94, R152). Safe. -/
  | otherBank
  /-- Raised by `step` when the configuration breaks a constraint of R141 (U15 asks for a refusal).
  Safe. -/
  | badConfiguration
  deriving DecidableEq, Repr

/-- `pid[c]` (R14 to R18). -/
structure PidChannel where
  gainP : Num
  gainI : Num
  gainD : Num
  error : Num
  previousError : Num
  integralAccumulator : Num
  lastOutput : Num
  deriving DecidableEq, Repr

/-- `chan[c]` (R19 to R21), in the field order of a `SNAP` record (R110). -/
structure ChanState where
  currentPosition : Num
  targetPosition : Num
  velocity : Num
  deriving DecidableEq, Repr

/-- All that the block holds for one channel: `pid[c]`, `chan[c]` and `pulse[c]`. -/
structure Channel where
  pid : PidChannel
  chan : ChanState
  /-- `pulse[c]`: `none` is R22's "no value" before the first write. -/
  pulse : Option Width
  deriving DecidableEq, Repr

/-- The anomaly labels of R116. -/
inductive Anomaly
  | malformedSync
  | malformedTerm
  | malformedSum
  | rangeClamp
  | deadlineMiss
  | badChannel
  deriving DecidableEq, Repr

/-- What leaves the block (R112): a `set_pulse` call, or the record a `SNAP` returns (R110). -/
inductive Output
  | setPulse (c : Nat) (w : Int)
  | snapshot (acc : Setpoints) (chans : List ChanState)
  deriving DecidableEq, Repr

/-- The state of the block: R10's tuple, and nothing else (R25). The configuration and the event trace
are no part of it (R29). -/
structure Block where
  /-- The decoder state register (R11). -/
  fsm : Fsm
  /-- `scratch[0..4]` (R12). -/
  scratch : Scratch
  /-- `acc[X]`, `acc[Y]` (R13). -/
  acc : Setpoints
  /-- `pid[c]`, `chan[c]`, `pulse[c]`, channel 1 first. -/
  channels : List Channel
  deriving DecidableEq, Repr

/-- What serving one event gives: the block after it, what left it, and the labels noted. -/
structure Reaction where
  block : Block
  out : List Output
  labels : List Anomaly
  deriving DecidableEq, Repr

/-- The machine a step runs on: the block, together with the parameters that R29 passes to a step. The
host's `step` and `exec` have no argument but the machine, so the configuration and the events to come
stand beside the block here; `Block.serve` has them as its arguments. -/
structure State extends Block where
  /-- PARAMETER: the configuration, constant and never written (R23, R29; log entry 1). -/
  cfg : Config
  /-- The bank holds one record for each channel (R152): a proof, no data. -/
  sized : channels.length = cfg.nch
  /-- PARAMETER: the events the environment has still to deliver, next first (R8, R29; log entry 4). -/
  input : List Event
  /-- MODEL: what left the block since the event being served was taken, oldest first (log entry 4). -/
  out : List Output
  /-- MODEL: the anomaly labels noted since then, oldest first; nothing reads them (R115, R117). -/
  labels : List Anomaly
  /-- MODEL: how many free bytes have been used (log entry 3). -/
  free : Nat
  deriving DecidableEq, Repr

/-- A channel right after reset (R138, R139, R140). -/
def Channel.atReset (cfg : Config) (k : ChannelConfig) : Channel :=
  { pid :=
      { gainP := k.gainP, gainI := k.gainI, gainD := k.gainD
        error := .of 0, previousError := .of 0, integralAccumulator := .of 0, lastOutput := .of 0 }
    chan := { currentPosition := cfg.posReset, targetPosition := cfg.posReset, velocity := .of 0 }
    pulse := none }

/-- The block right after reset, with this configuration (R28). `scratch` is zero: DESIGN CHOICE (log
entry 3), the spec leaves it unspecified. -/
def State.resetWith (cfg : Config) : State :=
  { cfg := cfg
    fsm := .waitSync1
    scratch := ⟨0#8, 0#8, 0#8, 0#8, 0#8⟩
    acc := ⟨cfg.spReset, cfg.spReset⟩
    channels := cfg.channels.map (Channel.atReset cfg)
    sized := List.length_map ..
    input := []
    out := []
    labels := []
    free := 0 }

/-- The machine right after reset, at the default configuration (R5, R28). -/
def State.reset : State := State.resetWith Config.default

end Sys2Proof.Machine
end

