-- ==== Sys2Proof/Machine/Ops.lean ====
section
/-!
DEFINITION. The operations the meanings share: sequencing, access to a channel's records, the two
shared-state primitives `SpSnapshot` and `SpAdd` (R36, R37), the saturations `clamp` and `clampi`
(R93, R107), the anomaly labels and outputs, and taking the next event.
The block takes no exception and has no return from one (R115, R126, R127): an anomaly is handled
inside the operation that meets it, and `State.note` records its label.
-/

namespace Sys2Proof.Machine

/-- Perform `k` on the state that `o` answers; a stop stays a stop. -/
def andThen (o : Host.Outcome State Fault Refusal) (k : State → Host.Outcome State Fault Refusal) :
    Host.Outcome State Fault Refusal :=
  match o with
  | .next s => k s
  | .fault r => .fault r
  | .refused r => .refused r

/-- `anomaly <NAME>` (R7, R115): record the label; nothing else. -/
def State.note (a : Anomaly) (s : State) : State := { s with labels := s.labels ++ [a] }

/-- Record the label where the condition holds. -/
def State.noteIf (cond : Bool) (a : Anomaly) (s : State) : State :=
  { s with labels := s.labels ++ (if cond then [a] else []) }

/-- Something leaves the block (R112). -/
def State.emit (o : Output) (s : State) : State := { s with out := s.out ++ [o] }

/-- The position in this machine's bank that an index names; `none` where it is an index of a bank of
another size. -/
def State.index? (s : State) (c : ChannelId) : Option (Fin s.cfg.nch) :=
  if h : c.nch = s.cfg.nch then some (c.index.cast h) else none

/-- The records of a channel. The index is bounded, so there is always a record (R152). -/
def State.channel (s : State) (c : Fin s.cfg.nch) : Channel :=
  s.channels[c.val]'(by rw [s.sized]; exact c.isLt)

/-- Write the records of a channel. -/
def State.setChannel (s : State) (c : Fin s.cfg.nch) (k : Channel) : State :=
  { s with channels := s.channels.set c k, sized := (List.length_set ..).trans s.sized }

/-- `SpSnapshot()`: both accumulators in one read (R36). -/
def State.spSnapshot (s : State) : Setpoints := s.acc

/-- `SpAdd(dx, dy)`: both accumulators in one read-modify-write (R37, R73). -/
def State.spAdd (dx dy : Int) (s : State) : State :=
  { s with acc :=
      { x := fadd s.cfg.format s.acc.x (ofInt s.cfg.format dx)
        y := fadd s.cfg.format s.acc.y (ofInt s.cfg.format dy) } }

/-- `of_int(PW_MIN)`. -/
def rangeLo (cfg : Config) : Num := ofInt cfg.format cfg.pwMin

/-- `of_int(PW_MAX)`. -/
def rangeHi (cfg : Config) : Num := ofInt cfg.format cfg.pwMax

/-- `clamp(v)`: saturation to `[PW_MIN, PW_MAX]`; NaN passes (R93). -/
def clamp (cfg : Config) (v : Num) : Num :=
  if flt v (rangeLo cfg) then rangeLo cfg
  else if flt (rangeHi cfg) v then rangeHi cfg
  else v

/-- `clamp` changes the value. -/
def clamps (cfg : Config) (v : Num) : Bool := flt v (rangeLo cfg) || flt (rangeHi cfg) v

/-- The label `RANGE_CLAMP`, where `clamp` changes `v` (R93, R116). -/
def rangeLabels (cfg : Config) (v : Num) : List Anomaly := if clamps cfg v then [.rangeClamp] else []

/-- Note the label of `clamp(v)`. -/
def State.noteClamp (v : Num) (s : State) : State := { s with labels := s.labels ++ rangeLabels s.cfg v }

/-- `clampi(w)`: the integer saturation inside the Actuation Layer (R107). -/
def clampi (cfg : Config) (w : Int) : Int :=
  if w < cfg.pwMin then cfg.pwMin else if w > cfg.pwMax then cfg.pwMax else w

/-- `limit(I)`, the integral policy (R84). -/
def limit (cfg : Config) (i : Num) : Num :=
  match cfg.integralLimit with
  | none => i
  | some l =>
    let neg := fsub cfg.format (ofInt cfg.format 0) l
    if flt i neg then neg else if flt l i then l else i

/-- Take the next event: the operation it selects, and the state in which that operation starts. `out`
and `labels` start empty for each event. `none` where no event is left. -/
def fetch (s : State) : Option (Instr × State) :=
  match s.input with
  | [] => none
  | e :: es => some (decodeEvent s.fsm s.scratch e, { s with input := es, out := [], labels := [] })

/-- The events that deliver a table word of `nbits` bits: its bytes, first byte first. -/
def wordEvents (nbits w : Nat) : List Event := (wordBytes (nbits / 8) w).map .rx

end Sys2Proof.Machine
end

