-- ==== Sys2Proof/Machine/FrameReceiver.lean ====
section
/-!
DEFINITION. The Frame Receiver: the meanings of the ten operations an `RX` event can select (R60 to
R69), and of a whole frame (R74).
-/

namespace Sys2Proof.Machine

/-- `RX.WS1.SYNC` (R60). -/
def execRxWs1Sync (s : State) : Host.Outcome State Fault Refusal :=
  .next { s with fsm := .b0 }

/-- `RX.WS1.SKIP` (R61): the byte is discarded. -/
def execRxWs1Skip (_b : Byte) (s : State) : Host.Outcome State Fault Refusal :=
  .next (s.note .malformedSync)

/-- `RX.B0` (R62). -/
def execRxB0 (b : Byte) (s : State) : Host.Outcome State Fault Refusal :=
  .next { s with scratch := { s.scratch with s0 := b }, fsm := .b1 }

/-- `RX.B1` (R63). -/
def execRxB1 (b : Byte) (s : State) : Host.Outcome State Fault Refusal :=
  .next { s with scratch := { s.scratch with s1 := b }, fsm := .b2 }

/-- `RX.B2` (R64). -/
def execRxB2 (b : Byte) (s : State) : Host.Outcome State Fault Refusal :=
  .next { s with scratch := { s.scratch with s2 := b }, fsm := .b3 }

/-- `RX.B3` (R65). -/
def execRxB3 (b : Byte) (s : State) : Host.Outcome State Fault Refusal :=
  .next { s with scratch := { s.scratch with s3 := b }, fsm := .b4 }

/-- `RX.B4` (R66): the checksum byte is stored, not tested. -/
def execRxB4 (b : Byte) (s : State) : Host.Outcome State Fault Refusal :=
  .next { s with scratch := { s.scratch with s4 := b }, fsm := .waitSync2 }

/-- `RX.WS2.COMMIT` (R67): both deltas are added at once. -/
def execRxWs2Commit (s : State) : Host.Outcome State Fault Refusal :=
  .next { s.spAdd (scratchDx s.scratch) (scratchDy s.scratch) with fsm := .waitSync1 }

/-- `RX.WS2.BADSUM` (R68). -/
def execRxWs2Badsum (s : State) : Host.Outcome State Fault Refusal :=
  .next { s.note .malformedSum with fsm := .waitSync1 }

/-- `RX.WS2.ABORT` (R69). -/
def execRxWs2Abort (_b : Byte) (s : State) : Host.Outcome State Fault Refusal :=
  .next { s.note .malformedTerm with fsm := .waitSync1 }

/-- One received byte, served in the state the decoder is in (R47). -/
def execRx (b : Byte) (s : State) : Host.Outcome State Fault Refusal :=
  match s.fsm with
  | .waitSync1 => if b = Config.sync then execRxWs1Sync s else execRxWs1Skip b s
  | .b0 => execRxB0 b s
  | .b1 => execRxB1 b s
  | .b2 => execRxB2 b s
  | .b3 => execRxB3 b s
  | .b4 => execRxB4 b s
  | .waitSync2 =>
    if b = Config.term then
      (if checksumValid s.scratch then execRxWs2Commit s else execRxWs2Badsum s)
    else execRxWs2Abort b s

/-- Received bytes, one after another. -/
def execRxAll : List Byte → State → Host.Outcome State Fault Refusal
  | [], s => .next s
  | b :: bs, s => andThen (execRx b s) (execRxAll bs)

/-- `FRAME7` (R74): the seven bytes of the frame, received in sequence with no event between them. In
`WaitSync1` and with a valid checksum this is `RX.WS1.SYNC`, `RX.B0` to `RX.B4`, `RX.WS2.COMMIT`. -/
def execFrame7 (xHi xLo yHi yLo cs : Byte) (s : State) : Host.Outcome State Fault Refusal :=
  execRxAll (frame7Bytes xHi xLo yHi yLo cs) s

end Sys2Proof.Machine
end

