-- ==== Sys2Proof/Machine/Boundary.lean ====
section
/-!
DEFINITION. The boundary operations: `SET_PULSE` (R105 to R107), `SNAP` (R110) and `RESET` (R135).
-/

namespace Sys2Proof.Machine

/-- `pulse[c] <- w`. -/
def State.writePulse (s : State) (c : Fin s.cfg.nch) (w : Width) : State :=
  s.setChannel c { s.channel c with pulse := some w }

/-- The position in the bank of a channel number inside `1..NCH` (R6). -/
def channelPosition (cfg : Config) (ch : Int) (h : 1 ≤ ch ∧ ch ≤ cfg.nch) : Fin cfg.nch :=
  ⟨(ch - 1).toNat, by omega⟩

/-- `SET_PULSE` (R105): an index outside `1..NCH` is a no-op (R106); the width is saturated (R107). The
index is checked here, once (R152); behind the check it is bounded. -/
def execSetPulse (ch w : Int) (s : State) : Host.Outcome State Fault Refusal :=
  if h : 1 ≤ ch ∧ ch ≤ s.cfg.nch then
    let v := clampi s.cfg w
    .next ((s.noteIf (v ≠ w) .rangeClamp).writePulse (channelPosition s.cfg ch h) (BitVec.ofInt 16 v))
  else .next (s.note .badChannel)

/-- `SNAP` (R110): the record leaves the block; no state changes. -/
def execSnap (s : State) : Host.Outcome State Fault Refusal :=
  .next (s.emit (.snapshot s.acc (s.channels.map Channel.chan)))

/-- Five bytes nothing is known of (R136, U9; log entry 3). -/
def freeScratch (n : Nat) : Scratch :=
  ⟨Config.freeByte n, Config.freeByte (n + 1), Config.freeByte (n + 2), Config.freeByte (n + 3),
    Config.freeByte (n + 4)⟩

/-- `RESET` (R135). The events still to come are the environment's and stay; `scratch` is left
unspecified. -/
def execReset (s : State) : Host.Outcome State Fault Refusal :=
  .next { s with
    fsm := .waitSync1
    acc := ⟨s.cfg.spReset, s.cfg.spReset⟩
    channels := s.cfg.channels.map (Channel.atReset s.cfg)
    sized := List.length_map ..
    scratch := freeScratch s.free
    free := s.free + 5 }

end Sys2Proof.Machine
end

