-- ==== Sys2Proof/Machine/PidBank.lean ====
section
/-!
DEFINITION. The PID Bank: the control law of one channel (R82, R83, R84).
-/

namespace Sys2Proof.Machine

/-- The PID expression, in the order and association of R82: left-to-right sum, then one division. -/
def pidOutput (f : NumFormat) (kp ki kd e i prev : Num) : Num :=
  let p := fmul f kp e
  let it := fmul f ki i
  let dd := fsub f e prev
  let d := fmul f kd dd
  let s1 := fadd f p it
  let s2 := fadd f s1 d
  fdiv f s2 (ofInt f Config.pidDiv)

/-- One evaluation of the control law on the record of a channel (R83): the new integral and the old
`previous_error` enter the output; `previous_error` is committed last. -/
def pidUpdate (cfg : Config) (p : PidChannel) (target current : Num) : PidChannel :=
  let e := fsub cfg.format target current
  let i := limit cfg (fadd cfg.format p.integralAccumulator e)
  { p with
    error := e
    integralAccumulator := i
    lastOutput := pidOutput cfg.format p.gainP p.gainI p.gainD e i p.previousError
    previousError := e }

/-- The effect of `PID.COMPUTE` on a channel of the bank. -/
def State.pidCompute (s : State) (c : Fin s.cfg.nch) (target current : Num) : State :=
  s.setChannel c { s.channel c with pid := pidUpdate s.cfg (s.channel c).pid target current }

/-- `PID.COMPUTE` (R83). Its returned output is `pid[c].last_output` of the next state. -/
def execPidCompute (c : ChannelId) (target current : Num) (s : State) : Host.Outcome State Fault Refusal :=
  match s.index? c with
  | none => .refused .otherBank
  | some i => .next (s.pidCompute i target current)

end Sys2Proof.Machine
end

