-- ==== Sys2Proof/Machine/Scheduler.lean ====
section
/-!
DEFINITION. The Control Scheduler: `CH.STEP` (R94 to R96) and `TICK` (R90 to R92).
-/

namespace Sys2Proof.Machine

/-- Steps 3 and 4 of `CH.STEP` (R94): the PID output becomes the velocity and is added to the
position, the sum is saturated and stored (R95), cast to an integer (R96) and sent. -/
def integrateAndSend (s : State) (c : Fin s.cfg.nch) : Host.Outcome State Fault Refusal :=
  let k := s.channel c
  let sum := fadd s.cfg.format k.chan.currentPosition k.pid.lastOutput
  let pos := clamp s.cfg sum
  match trunc pos with
  | none => .fault .nanAtCast
  | some w =>
    execSetPulse (channelNumber c) w
      (((s.noteClamp sum).setChannel c
        { k with chan := { k.chan with velocity := k.pid.lastOutput, currentPosition := pos } }).emit
        (.setPulse (channelNumber c) w))

/-- The saturated target is stored and the PID evaluated with the position before this tick (R94, steps
1 and 2). -/
def State.aimAndCompute (s : State) (c : Fin s.cfg.nch) (raw : Num) : State :=
  State.pidCompute
    ((s.noteClamp raw).setChannel c
      { s.channel c with chan := { (s.channel c).chan with targetPosition := clamp s.cfg raw } })
    c (clamp s.cfg raw) (s.channel c).chan.currentPosition

/-- `CH.STEP` (R94): saturate the target and store it, evaluate the PID with the position before this
tick, integrate and send. -/
def execChStep (c : ChannelId) (snap : Setpoints) (s : State) : Host.Outcome State Fault Refusal :=
  match s.index? c with
  | none => .refused .otherBank
  | some i => integrateAndSend (s.aimAndCompute i (snap.get (s.cfg.channel i).spSel)) i

/-- `CH.STEP` on the channels of a list, in its order. -/
def stepChannels (snap : Setpoints) : List ChannelId → State → Host.Outcome State Fault Refusal
  | [], s => .next s
  | c :: cs, s => andThen (execChStep c snap s) (stepChannels snap cs)

/-- `TICK` (R90): one snapshot of the setpoints, then every channel in ascending order (R92). -/
def execTick (s : State) : Host.Outcome State Fault Refusal :=
  stepChannels s.spSnapshot (allChannels s.cfg.nch) s

end Sys2Proof.Machine
end

