-- ==== Sys2Proof/Machine/Dispatch.lean ====
section
/-! DEFINITION. One arm for each constructor of `Instr`: its meaning. -/

namespace Sys2Proof.Machine

def exec (i : Instr) (s : State) : Host.Outcome State Fault Refusal :=
  match i with
  | .rxWs1Sync => Sys2Proof.Machine.execRxWs1Sync s
  | .rxWs1Skip b => Sys2Proof.Machine.execRxWs1Skip b s
  | .rxB0 b => Sys2Proof.Machine.execRxB0 b s
  | .rxB1 b => Sys2Proof.Machine.execRxB1 b s
  | .rxB2 b => Sys2Proof.Machine.execRxB2 b s
  | .rxB3 b => Sys2Proof.Machine.execRxB3 b s
  | .rxB4 b => Sys2Proof.Machine.execRxB4 b s
  | .rxWs2Commit => Sys2Proof.Machine.execRxWs2Commit s
  | .rxWs2Badsum => Sys2Proof.Machine.execRxWs2Badsum s
  | .rxWs2Abort b => Sys2Proof.Machine.execRxWs2Abort b s
  | .pidCompute c target current => Sys2Proof.Machine.execPidCompute c target current s
  | .tick => Sys2Proof.Machine.execTick s
  | .chStep c p => Sys2Proof.Machine.execChStep c p s
  | .setPulse ch w => Sys2Proof.Machine.execSetPulse ch w s
  | .snap => Sys2Proof.Machine.execSnap s
  | .reset => Sys2Proof.Machine.execReset s
  | .frame7 xHi xLo yHi yLo cs => Sys2Proof.Machine.execFrame7 xHi xLo yHi yLo cs s

end Sys2Proof.Machine
end

