-- ==== Sys2Proof/WellFormed.lean ====
section
/-!
DEFINITION. Which configurations are inside the spec (R141) and which operands an operation may have.
-/

namespace Sys2Proof

/-- The constraints of R141: `NCH ≥ 1`; `0 ≤ PW_MIN ≤ PW_MAX ≤ 65535`; `POS_RESET` a value of `NUM`
in the range; `SP_RESET` a value of `NUM`; every gain finite; the integral limit finite and not
negative. -/
def Config.valid (cfg : Config) : Bool :=
  !cfg.channels.isEmpty
    && decide (cfg.pwMin ≤ cfg.pwMax) && decide (cfg.pwMax ≤ 65535)
    && Machine.isValue cfg.format cfg.posReset && Machine.isFinite cfg.posReset
    && !Machine.flt cfg.posReset (Machine.ofInt cfg.format cfg.pwMin)
    && !Machine.flt (Machine.ofInt cfg.format cfg.pwMax) cfg.posReset
    && Machine.isValue cfg.format cfg.spReset
    && cfg.channels.all (fun k =>
        Machine.isValue cfg.format k.gainP && Machine.isFinite k.gainP
          && Machine.isValue cfg.format k.gainI && Machine.isFinite k.gainI
          && Machine.isValue cfg.format k.gainD && Machine.isFinite k.gainD)
    && (match cfg.integralLimit with
        | none => true
        | some l => Machine.isValue cfg.format l && Machine.isFinite l && !Machine.flt l (.of 0))

/-- Operands an operation may have: the byte is one that selects the operation (R47); a channel
operand of `PID.COMPUTE` and `CH.STEP` is an index of this bank (R83, R94, R152) and a `NUM` operand is a value of
the format; the checksum of a whole frame is that of its payload (R46). `SET_PULSE` takes any
integers (R105, R106). -/
def Instr.wf (cfg : Config) : Instr → Bool
  | .rxWs1Sync => true
  | .rxWs1Skip b => b != Config.sync
  | .rxB0 _ => true
  | .rxB1 _ => true
  | .rxB2 _ => true
  | .rxB3 _ => true
  | .rxB4 _ => true
  | .rxWs2Commit => true
  | .rxWs2Badsum => true
  | .rxWs2Abort b => b != Config.term
  | .pidCompute c target current =>
      decide (c.nch = cfg.nch)
        && Machine.isValue cfg.format target && Machine.isValue cfg.format current
  | .tick => true
  | .chStep c p =>
      decide (c.nch = cfg.nch)
        && Machine.isValue cfg.format p.x && Machine.isValue cfg.format p.y
  | .setPulse _ _ => true
  | .snap => true
  | .reset => true
  | .frame7 xHi xLo yHi yLo cs => cs == Machine.csum xHi xLo yHi yLo

end Sys2Proof
end

