-- ==== Sys2Proof/Machine/Step.lean ====
section
/-!
DEFINITION. One step of the block, with the configuration and the event as parameters (R29); and one
step of the machine that holds them: the next event of the environment is served, whole (R40). A configuration
outside R141 is refused (U15). With no event left nothing happens: the block has no spontaneous step
(R77).
-/

namespace Sys2Proof.Machine

/-- The step relation of R29: the block `b`, with the configuration and the event to be served as
parameters. `n` counts the free bytes used before (log entry 3); only `RESET` reads it. -/
def Block.serve (cfg : Config) (e : Event) (n : Nat) (b : Block) (sized : b.channels.length = cfg.nch) :
    Host.Outcome Reaction Fault Refusal :=
  match exec (decodeEvent b.fsm b.scratch e)
      { b with cfg := cfg, sized := sized, input := [], out := [], labels := [], free := n } with
  | .next t => .next ⟨t.toBlock, t.out, t.labels⟩
  | .fault r => .fault r
  | .refused r => .refused r

/-- One step of the machine: its next event is served. -/
def step (s : State) : Host.Outcome State Fault Refusal :=
  if s.cfg.valid then
    match fetch s with
    | none => .next s
    | some (i, s') => exec i s'
  else .refused .badConfiguration

/-- `s` with the bytes of a table word as the next events of the environment. A byte is one `RX` event
and the very next step serves it; a whole frame is seven, served by the next seven steps. -/
def State.withFetchWord (s : State) (nbits w : Nat) : State :=
  { s with input := wordEvents nbits w ++ s.input }

end Sys2Proof.Machine
end

