-- ==== Sys2Proof/Safety.lean ====
section
/-!
DEFINITION. The terms in which claims are stated: runs over an event trace (R8), the values of a
number format (R81), the machine's invariant (R19, R99), what a tick makes of one channel (R94), the
scratch bytes that matter (R12), and the bounded states of R88. The machine imports nothing of this
file.
-/

namespace Sys2Proof.Machine

/-- `n` steps; a stop ends the run. -/
def run : Nat → State → Host.Outcome State Fault Refusal
  | 0, s => .next s
  | n + 1, s => andThen (step s) (run n)

/-- The run of the block from `s` over an event trace (R40): every event served, in order. -/
def deliver (es : List Event) (s : State) : Host.Outcome State Fault Refusal :=
  run es.length { s with input := es }

/-- The bytes an event trace delivers. -/
def rxBytes : List Event → List Byte
  | [] => []
  | .rx b :: es => b :: rxBytes es
  | .tick :: es => rxBytes es
  | .snap :: es => rxBytes es
  | .reset :: es => rxBytes es

/-- How many more bytes bring the decoder to `WaitSync1` (R75). -/
def bytesToSync : Fsm → Nat
  | .waitSync1 => 0
  | .b0 => 6
  | .b1 => 5
  | .b2 => 4
  | .b3 => 3
  | .b4 => 2
  | .waitSync2 => 1

/-- `v` is a finite number in `[PW_MIN, PW_MAX]`. -/
def InRange (cfg : Config) (v : Num) : Prop :=
  ∃ q minus, v = .fin q minus ∧ (cfg.pwMin : ℚ) ≤ q ∧ q ≤ cfg.pwMax

/-- `v` is a finite number of magnitude at most `b`. -/
def Bounded (b : ℚ) (v : Num) : Prop := ∃ q minus, v = .fin q minus ∧ |q| ≤ b

/-- The three gains of a channel (R14). -/
def Channel.gains (k : Channel) : Num × Num × Num := (k.pid.gainP, k.pid.gainI, k.pid.gainD)

/-- What a tick makes of one channel's records when the raw target is `raw` (R94, R95, R96). -/
def tickedChannel (cfg : Config) (raw : Num) (k : Channel) : Channel :=
  let t := clamp cfg raw
  let p := pidUpdate cfg k.pid t k.chan.currentPosition
  let pos := clamp cfg (fadd cfg.format k.chan.currentPosition p.lastOutput)
  { pid := p
    chan := { currentPosition := pos, targetPosition := t, velocity := p.lastOutput }
    pulse := (trunc pos).map (BitVec.ofInt 16) }

/-- What a tick makes of all channels: each reads its target from the one snapshot (R36, R91). -/
def tickedChannels (s : State) : List Channel :=
  List.zipWith (fun kc k => tickedChannel s.cfg (s.acc.get kc.spSel) k) s.cfg.channels s.channels

/-- The `set_pulse` calls of a tick that leaves these records, channel 1 first (R98). -/
def tickOutputs (first : Nat) : List Channel → List Output
  | [] => []
  | k :: ks => .setPulse first ((trunc k.chan.currentPosition).getD 0) :: tickOutputs (first + 1) ks

/-- What holds of a channel's records between operations (R14, R19, R99). -/
structure ChannelInv (cfg : Config) (kc : ChannelConfig) (k : Channel) : Prop where
  gains : k.pid.gainP = kc.gainP ∧ k.pid.gainI = kc.gainI ∧ k.pid.gainD = kc.gainD
  error_value : isValue cfg.format k.pid.error
  integral_value : isValue cfg.format k.pid.integralAccumulator
  output_value : isValue cfg.format k.pid.lastOutput
  previous_is_error : k.pid.previousError = k.pid.error
  position_in_range : InRange cfg k.chan.currentPosition
  position_value : isValue cfg.format k.chan.currentPosition
  target_in_range : InRange cfg k.chan.targetPosition
  target_value : isValue cfg.format k.chan.targetPosition
  velocity_is_output : k.chan.velocity = k.pid.lastOutput
  pulse_is_position : ∀ w, k.pulse = some w → trunc k.chan.currentPosition = some (w.toNat : Int)

/-- The invariant of the machine: a configuration inside R141, accumulators that are values of `NUM`,
and one channel record for each configured channel, each as `ChannelInv` says. -/
structure Inv (s : State) : Prop where
  config_valid : s.cfg.valid
  acc_x_value : isValue s.cfg.format s.acc.x
  acc_y_value : isValue s.cfg.format s.acc.y
  channels : List.Forall₂ (ChannelInv s.cfg) s.cfg.channels s.channels

/-- How many scratch bytes the frame in progress has written: the ones a later operation may read. -/
def liveBytes : Fsm → Nat
  | .waitSync1 => 0
  | .b0 => 0
  | .b1 => 1
  | .b2 => 2
  | .b3 => 3
  | .b4 => 4
  | .waitSync2 => 5

/-- The scratch buffers agree on their first `n` bytes. -/
def AgreeOn (n : Nat) (k l : Scratch) : Prop :=
  (0 < n → k.s0 = l.s0) ∧ (1 < n → k.s1 = l.s1) ∧ (2 < n → k.s2 = l.s2) ∧ (3 < n → k.s3 = l.s3) ∧
    (4 < n → k.s4 = l.s4)

/-- Two states that differ at most in scratch bytes the frame in progress has not written (R12). -/
def SameButDeadScratch (s t : State) : Prop :=
  t = { s with scratch := t.scratch } ∧ AgreeOn (liveBytes s.fsm) s.scratch t.scratch

/-- Two outcomes are alike: next states related by `R`, or the same stop. -/
def OutcomeRel (R : State → State → Prop) :
    Host.Outcome State Fault Refusal → Host.Outcome State Fault Refusal → Prop
  | .next s, .next t => R s t
  | .fault a, .fault b => a = b
  | .refused a, .refused b => a = b
  | _, _ => False

/-- Equal but for the model's own record of outputs and labels. -/
def SameHardware (s t : State) : Prop := { s with out := [], labels := [] } = { t with out := [], labels := [] }

/-- A channel's records within the bounds of R88. -/
structure BoundedChannel (cfg : Config) (k : Channel) : Prop where
  gains : Bounded (2 ^ 60) k.pid.gainP ∧ Bounded (2 ^ 60) k.pid.gainI ∧ Bounded (2 ^ 60) k.pid.gainD
  integral : Bounded (2 ^ 35) k.pid.integralAccumulator
  previous : Bounded 2000 k.pid.previousError
  output : isFinite k.pid.lastOutput
  position : InRange cfg k.chan.currentPosition

/-- The premises of R88: the baseline range, no integral limit, binary32, gains of magnitude at most
`2^60`; accumulators that are not NaN; and every channel within R88's bounds. -/
structure BoundedBaseline (s : State) : Prop where
  config_valid : s.cfg.valid
  range : s.cfg.pwMin = 2000 ∧ s.cfg.pwMax = 4000
  no_limit : s.cfg.integralLimit = none
  format : s.cfg.format = .binary32
  config_gains : ∀ kc ∈ s.cfg.channels, Bounded (2 ^ 60) kc.gainP ∧ Bounded (2 ^ 60) kc.gainI ∧ Bounded (2 ^ 60) kc.gainD
  sp_reset : s.cfg.spReset ≠ .nan
  acc : s.acc.x ≠ .nan ∧ s.acc.y ≠ .nan
  channels : ∀ k ∈ s.channels, BoundedChannel s.cfg k

end Sys2Proof.Machine
end

