-- ==== Sys2Proof/Certificates/Slice0/Obligations.lean ====
section
/-!
DEFINITION. The statements for the provers. `OBLIGATIONS.json` lists each with the rules it cites.
-/

open Sys2Proof Sys2Proof.Machine

/-- R60: `RX.WS1.SYNC` writes `fsm` only; a step that is delivered `0xAA` in `WaitSync1` performs it,
and a second `0xAA` is then payload. -/
def Obligations.SyncByteOpensFrame : Prop :=
  ∀ s : State,
    exec .rxWs1Sync s = .next { s with fsm := .b0 }
    ∧ (∀ es, s.cfg.valid → s.input = .rx 0xAA#8 :: es → s.fsm = .waitSync1 →
      step s = .next { s with fsm := .b0, input := es, out := [], labels := [] })
    ∧ (∀ es, s.cfg.valid → s.input = .rx 0xAA#8 :: es → s.fsm = .b0 →
      step s = .next { s with
        scratch := { s.scratch with s0 := 0xAA#8 }, fsm := .b1, input := es, out := [], labels := [] })

/-- R61, R53: `RX.WS1.SKIP` has no effect but its label; a step that is delivered any byte but `0xAA` in
`WaitSync1` performs it. -/
def Obligations.OtherByteIsSkipped : Prop :=
  ∀ (s : State) (b : Byte),
    exec (.rxWs1Skip b) s = .next { s with labels := s.labels ++ [.malformedSync] }
    ∧ (∀ es, b ≠ 0xAA#8 → s.cfg.valid → s.input = .rx b :: es → s.fsm = .waitSync1 →
      step s = .next { s with input := es, out := [], labels := [.malformedSync] })

/-- R62 to R66: in `B0` to `B4` any byte is stored in its scratch element and the decoder advances;
nothing else changes. -/
def Obligations.PayloadBytesAreStored : Prop :=
  ∀ (s : State) (b : Byte),
    (exec (.rxB0 b) s = .next { s with scratch := { s.scratch with s0 := b }, fsm := .b1 }
      ∧ exec (.rxB1 b) s = .next { s with scratch := { s.scratch with s1 := b }, fsm := .b2 }
      ∧ exec (.rxB2 b) s = .next { s with scratch := { s.scratch with s2 := b }, fsm := .b3 }
      ∧ exec (.rxB3 b) s = .next { s with scratch := { s.scratch with s3 := b }, fsm := .b4 }
      ∧ exec (.rxB4 b) s = .next { s with scratch := { s.scratch with s4 := b }, fsm := .waitSync2 })
    ∧ (∀ es, s.cfg.valid → s.input = .rx b :: es →
      (s.fsm = .b0 → step s = .next { s with
        scratch := { s.scratch with s0 := b }, fsm := .b1, input := es, out := [], labels := [] })
      ∧ (s.fsm = .b1 → step s = .next { s with
        scratch := { s.scratch with s1 := b }, fsm := .b2, input := es, out := [], labels := [] })
      ∧ (s.fsm = .b2 → step s = .next { s with
        scratch := { s.scratch with s2 := b }, fsm := .b3, input := es, out := [], labels := [] })
      ∧ (s.fsm = .b3 → step s = .next { s with
        scratch := { s.scratch with s3 := b }, fsm := .b4, input := es, out := [], labels := [] })
      ∧ (s.fsm = .b4 → step s = .next { s with
        scratch := { s.scratch with s4 := b }, fsm := .waitSync2, input := es, out := [], labels := [] }))

/-- R67, R48, R49: `RX.WS2.COMMIT` adds both sign-magnitude deltas to the accumulators and returns the
decoder to `WaitSync1`; nothing else changes. The words are assembled big-endian and bit 15 negates. A
step that is delivered `0x55` in `WaitSync2` with a valid checksum performs it. -/
def Obligations.CommitAddsBothDeltas : Prop :=
  ∀ s : State, ∃ dx dy : ℤ,
    (dx = if s.scratch.s0.getLsbD 7
      then -(256 * (s.scratch.s0.toNat % 128 : ℕ) + s.scratch.s1.toNat : ℤ)
      else 256 * (s.scratch.s0.toNat % 128 : ℕ) + s.scratch.s1.toNat)
    ∧ (dy = if s.scratch.s2.getLsbD 7
      then -(256 * (s.scratch.s2.toNat % 128 : ℕ) + s.scratch.s3.toNat : ℤ)
      else 256 * (s.scratch.s2.toNat % 128 : ℕ) + s.scratch.s3.toNat)
    ∧ exec .rxWs2Commit s = .next { s with
        fsm := .waitSync1
        acc := ⟨fadd s.cfg.format s.acc.x (ofInt s.cfg.format dx),
          fadd s.cfg.format s.acc.y (ofInt s.cfg.format dy)⟩ }
    ∧ (∀ es, s.cfg.valid → s.input = .rx 0x55#8 :: es → s.fsm = .waitSync2 →
      s.scratch.s4.toNat
        = (s.scratch.s0.toNat + s.scratch.s1.toNat + s.scratch.s2.toNat + s.scratch.s3.toNat) % 256 →
      step s = .next { s with
        fsm := .waitSync1
        acc := ⟨fadd s.cfg.format s.acc.x (ofInt s.cfg.format dx),
          fadd s.cfg.format s.acc.y (ofInt s.cfg.format dy)⟩
        input := es, out := [], labels := [] })

/-- R68: `RX.WS2.BADSUM` drops the frame: `fsm` alone changes. A step that is delivered `0x55` in
`WaitSync2` with an invalid checksum performs it. -/
def Obligations.BadChecksumDropsFrame : Prop :=
  ∀ s : State,
    exec .rxWs2Badsum s = .next { s with fsm := .waitSync1, labels := s.labels ++ [.malformedSum] }
    ∧ (∀ es, s.cfg.valid → s.input = .rx 0x55#8 :: es → s.fsm = .waitSync2 →
      s.scratch.s4.toNat
        ≠ (s.scratch.s0.toNat + s.scratch.s1.toNat + s.scratch.s2.toNat + s.scratch.s3.toNat) % 256 →
      step s = .next { s with fsm := .waitSync1, input := es, out := [], labels := [.malformedSum] })

/-- R69, R118: `RX.WS2.ABORT` drops the frame: `fsm` alone changes. A step that is delivered any byte
but `0x55` in `WaitSync2` performs it, whatever the checksum; `0xAA` opens no new frame. -/
def Obligations.BadTerminatorDropsFrame : Prop :=
  ∀ (s : State) (b : Byte),
    exec (.rxWs2Abort b) s = .next { s with fsm := .waitSync1, labels := s.labels ++ [.malformedTerm] }
    ∧ (∀ es, b ≠ 0x55#8 → s.cfg.valid → s.input = .rx b :: es → s.fsm = .waitSync2 →
      step s = .next { s with fsm := .waitSync1, input := es, out := [], labels := [.malformedTerm] })

/-- R47, R59: for every state, scratch buffer and byte exactly one row of the opcode table is taken,
the one of lowest priority number among those whose match holds; it is the decoded operation's row,
and the operation answers a next state whose `fsm` is the row's. -/
def Obligations.DecodeFollowsOpcodeTable : Prop :=
  ∀ (s : State) (b : Byte), ∃ r ∈ byteRows, r.holds s.fsm s.scratch b
    ∧ (∀ r' ∈ byteRows, r'.holds s.fsm s.scratch b → r' = r ∨ r.priority < r'.priority)
    ∧ (decodeByte s.fsm s.scratch b).mnemonic = r.mnemonic
    ∧ ∃ t, exec (decodeByte s.fsm s.scratch b) s = .next t ∧ t.fsm = r.next

/-- A few bytes, written out from the table of R47, decode to the operation they stand for. -/
def Obligations.WrittenOutBytesDecode : Prop :=
  decodeByte .waitSync1 ⟨0#8, 10#8, 0#8, 5#8, 15#8⟩ 0b10101010#8 = .rxWs1Sync
    ∧ decodeByte .waitSync1 ⟨0#8, 10#8, 0#8, 5#8, 15#8⟩ 0b01010101#8 = .rxWs1Skip 0x55#8
    ∧ decodeByte .b0 ⟨0#8, 10#8, 0#8, 5#8, 15#8⟩ 0b10101010#8 = .rxB0 0xAA#8
    ∧ decodeByte .b4 ⟨0#8, 10#8, 0#8, 5#8, 15#8⟩ 0b01010101#8 = .rxB4 0x55#8
    ∧ decodeByte .waitSync2 ⟨0#8, 10#8, 0#8, 5#8, 15#8⟩ 0b01010101#8 = .rxWs2Commit
    ∧ decodeByte .waitSync2 ⟨0#8, 10#8, 0#8, 5#8, 0#8⟩ 0b01010101#8 = .rxWs2Badsum
    ∧ decodeByte .waitSync2 ⟨0#8, 10#8, 0#8, 5#8, 15#8⟩ 0b10101010#8 = .rxWs2Abort 0xAA#8

/-- R40, R47, R51: with a configuration inside R141, a step takes the next event and is the operation
the event selects, on the state with the event consumed. The operation is well-formed. The model's
choices beside these rules: the events to come are a list in the state, and the lists of outputs and
labels are emptied when an event is taken (log entry 4, DESIGN CHOICE); a byte placed by
`withFetchWord` is served by the very next step, in the state the decoder is in (log entry 9, DESIGN
CHOICE). -/
def Obligations.StepServesTheNextEvent : Prop :=
  (∀ (s : State) (e : Event) (es : List Event) (i : Instr), s.cfg.valid → s.input = e :: es →
      decodeEvent s.fsm s.scratch e = i →
        i.wf s.cfg ∧ step s = exec i { s with input := es, out := [], labels := [] })
    ∧ (∀ (s : State) (w : ℕ), s.cfg.valid →
      step (s.withFetchWord 8 w)
        = exec (decodeByte s.fsm s.scratch (BitVec.ofNat 8 w)) { s with out := [], labels := [] })

/-- R29, R10: the configuration and the event trace are parameters and no state of the block. A step of
the machine is `Block.serve`, a function of the configuration, the event and the block, on that block:
it stops where that stops and otherwise gives its block, outputs and labels, whatever events come after
and whatever outputs and labels stood there before; it keeps the configuration and leaves the rest of
the trace. No operation writes the configuration or the trace. The counter of free bytes (log entry 3)
matters to `RESET` alone. That the machine holds the two parameters beside the block is the model's
choice (log entries 1 and 4, DESIGN CHOICE). -/
def Obligations.StepPassesParameters : Prop :=
  (∀ (s : State) (e : Event) (es : List Event), s.cfg.valid → s.input = e :: es →
      (∀ r, Block.serve s.cfg e s.free s.toBlock s.sized = .next r →
        ∃ t, step s = .next t ∧ t.toBlock = r.block ∧ t.out = r.out ∧ t.labels = r.labels
          ∧ t.cfg = s.cfg ∧ t.input = es)
      ∧ (∀ f, Block.serve s.cfg e s.free s.toBlock s.sized = .fault f → step s = .fault f)
      ∧ (∀ f, Block.serve s.cfg e s.free s.toBlock s.sized = .refused f → step s = .refused f))
    ∧ (∀ (cfg : Config) (e : Event) (m n : ℕ) (b : Block) (h : b.channels.length = cfg.nch), e ≠ .reset →
      Block.serve cfg e m b h = Block.serve cfg e n b h)
    ∧ (∀ (i : Instr) (s t : State), exec i s = .next t → t.cfg = s.cfg ∧ t.input = s.input)

/-- R77: with no event the block does nothing. -/
def Obligations.NoEventNoChange : Prop :=
  ∀ s : State, s.cfg.valid → s.input = [] → step s = .next s

/-- U15, R141: a configuration outside the constraints is refused, whatever the event: no channel; an
empty range; a width above 65535; a `POS_RESET` outside `[PW_MIN, PW_MAX]` (or not finite); a gain that
is not finite; an `INTEGRAL_LIMIT` that is not finite or is negative; and a `POS_RESET`, `SP_RESET`,
gain or limit that is no value of `NUM`. That a step is where it is refused, and that a number outside
the format counts as a broken constraint, are the model's choices (log entry 7, DESIGN CHOICE). -/
def Obligations.BadConfigurationIsRefused : Prop :=
  ∀ s : State, s.cfg.channels = [] ∨ s.cfg.pwMax < s.cfg.pwMin ∨ 65535 < s.cfg.pwMax
      ∨ ¬ InRange s.cfg s.cfg.posReset
      ∨ (∃ k ∈ s.cfg.channels, ¬ isFinite k.gainP ∨ ¬ isFinite k.gainI ∨ ¬ isFinite k.gainD)
      ∨ (∃ l, s.cfg.integralLimit = some l ∧ (¬ isFinite l ∨ ∃ q m, l = .fin q m ∧ q < 0))
      ∨ ¬ isValue s.cfg.format s.cfg.posReset ∨ ¬ isValue s.cfg.format s.cfg.spReset
      ∨ (∃ k ∈ s.cfg.channels, ¬ isValue s.cfg.format k.gainP ∨ ¬ isValue s.cfg.format k.gainI
          ∨ ¬ isValue s.cfg.format k.gainD)
      ∨ (∃ l, s.cfg.integralLimit = some l ∧ ¬ isValue s.cfg.format l) →
    step s = .refused .badConfiguration

/-- R47, R46: encoding then decoding is the identity. A well-formed per-byte operation, in its decoder
state and with the checksum it asks for, is one byte that decodes to it; every byte in every state is
the encoding of what it decodes to; a well-formed whole frame is recognised at the head of any byte
string. -/
def Obligations.DecodeOfEncodeIsIdentity : Prop :=
  (∀ (cfg : Config) (i : Instr) (fsm : Fsm) (k : Scratch),
      i.wf cfg → i.inState = some fsm → i.sumCondition k →
        ∃ b, encode i = [b] ∧ decodeByte fsm k b = i)
    ∧ (∀ (cfg : Config) (fsm : Fsm) (k : Scratch) (b : Byte),
      encode (decodeByte fsm k b) = [b] ∧ (decodeByte fsm k b).wf cfg
        ∧ (decodeByte fsm k b).inState = some fsm ∧ (decodeByte fsm k b).sumCondition k)
    ∧ (∀ (cfg : Config) (p0 p1 p2 p3 cs : Byte) (rest : List Byte), (Instr.frame7 p0 p1 p2 p3 cs).wf cfg →
      decodeFrame (encode (.frame7 p0 p1 p2 p3 cs) ++ rest) = .frame (.frame7 p0 p1 p2 p3 cs) rest)

/-- R45, R46, R48: what the recogniser of whole frames accepts is exactly `0xAA`, four payload bytes,
their sum modulo 256, `0x55`; the bytes after it are left. -/
def Obligations.FrameRecogniserIsExact : Prop :=
  ∀ (bs rest : List Byte) (i : Instr), decodeFrame bs = .frame i rest ↔
    ∃ p0 p1 p2 p3 cs : Byte, i = .frame7 p0 p1 p2 p3 cs
      ∧ cs.toNat = (p0.toNat + p1.toNat + p2.toNat + p3.toNat) % 256
      ∧ bs = 0xAA#8 :: p0 :: p1 :: p2 :: p3 :: cs :: 0x55#8 :: rest

/-- R71, R50, R57, R72: sign-magnitude decode and encode. `enc16` gives a 16-bit word that is never
`0x8000`; `sm16` inverts it; `sm16` ranges over [-32767, 32767], and both zeros give 0. -/
def Obligations.SignMagnitudeRoundTrip : Prop :=
  (∀ v : ℤ, -32767 ≤ v → v ≤ 32767 → sm16 (enc16 v) = v ∧ enc16 v < 65536 ∧ enc16 v ≠ 0x8000)
    ∧ (∀ raw : ℕ, raw < 65536 → -32767 ≤ sm16 raw ∧ sm16 raw ≤ 32767
        ∧ (sm16 raw = 0 ↔ raw = 0x0000 ∨ raw = 0x8000))
    ∧ (∀ hi lo : Byte, word16 hi lo < 65536 ∧ hiByte (word16 hi lo) = hi ∧ loByte (word16 hi lo) = lo)

/-- R72: `sm16` inverts `enc16`, and feeding `frame(dx, dy)` to a decoder in `WaitSync1` commits exactly
`(dx, dy)`, for every displacement in the representable range. -/
def Obligations.CanonicalFrameCommitsItsDeltas : Prop :=
  ∀ (s : State) (dx dy : ℤ), s.cfg.valid → s.fsm = .waitSync1 →
    -32767 ≤ dx → dx ≤ 32767 → -32767 ≤ dy → dy ≤ 32767 →
      sm16 (enc16 dx) = dx ∧ sm16 (enc16 dy) = dy
      ∧ ∃ k, deliver ((frameBytes dx dy).map .rx) s = .next { s with
        acc := ⟨fadd s.cfg.format s.acc.x (ofInt s.cfg.format dx),
          fadd s.cfg.format s.acc.y (ofInt s.cfg.format dy)⟩
        scratch := k, input := [], out := [], labels := [] }

/-- R74: the seven bytes of a frame with a valid checksum, from `WaitSync1`, whatever the payload and
whatever `TICK` and `SNAP` events are interleaved: if the run does not stop, then `fsm = WaitSync1`,
`scratch` holds the payload and checksum, and exactly the frame's deltas have been added. -/
def Obligations.WholeFrameEffectUnderInterleaving : Prop :=
  ∀ (s t : State) (es : List Event) (p0 p1 p2 p3 : Byte), s.fsm = .waitSync1 → .reset ∉ es →
    rxBytes es = frame7Bytes p0 p1 p2 p3 (csum p0 p1 p2 p3) → deliver es s = .next t →
      t.fsm = .waitSync1 ∧ t.scratch = ⟨p0, p1, p2, p3, csum p0 p1 p2 p3⟩ ∧ t.cfg = s.cfg
        ∧ t.acc = ⟨fadd s.cfg.format s.acc.x (ofInt s.cfg.format (sm16 (word16 p0 p1))),
            fadd s.cfg.format s.acc.y (ofInt s.cfg.format (sm16 (word16 p2 p3)))⟩

/-- R74, R51: from `WaitSync1` and with a valid checksum `FRAME7` is one commit, and nothing but
`scratch` and the accumulators changes. That it answers a next state from every decoder state and with
any checksum byte, as its seven bytes received in sequence (R47), is the model's reading (log entry 13,
DEDUCED): R51 and R74 give it an effect only under that condition. -/
def Obligations.WholeFrameCommitsOnce : Prop :=
  ∀ (s : State) (p0 p1 p2 p3 cs : Byte),
    (∃ t, exec (.frame7 p0 p1 p2 p3 cs) s = .next t ∧ t.channels = s.channels ∧ t.cfg = s.cfg
      ∧ t.input = s.input ∧ t.out = s.out)
    ∧ (s.fsm = .waitSync1 → cs = csum p0 p1 p2 p3 →
      exec (.frame7 p0 p1 p2 p3 cs) s = .next { s with
        scratch := ⟨p0, p1, p2, p3, cs⟩
        acc := ⟨fadd s.cfg.format s.acc.x (ofInt s.cfg.format (sm16 (word16 p0 p1))),
          fadd s.cfg.format s.acc.y (ofInt s.cfg.format (sm16 (word16 p2 p3)))⟩ })

/-- R75: from every decoder state the next `bytesToSync` bytes, whatever they are and at most six,
bring the decoder to `WaitSync1`; and from `WaitSync1` a byte `0xAA` brings it back after exactly seven
bytes. -/
def Obligations.BoundedReturnToSync : Prop :=
  (∀ (s : State) (bs : List Byte), s.cfg.valid → bs.length = bytesToSync s.fsm →
      bytesToSync s.fsm ≤ 6 ∧ ∃ t, deliver (bs.map .rx) s = .next t ∧ t.fsm = .waitSync1)
    ∧ (∀ (s : State) (bs : List Byte), s.cfg.valid → s.fsm = .waitSync1 → bs.length ≤ 6 →
      ∃ t, deliver ((0xAA#8 :: bs).map .rx) s = .next t ∧ (t.fsm = .waitSync1 ↔ bs.length = 6))

/-- R76: a canonical frame with one byte changed, then a canonical frame, from `WaitSync1`: exactly one
commit, that of the second, provided the changed byte is not the sync byte, or none of the bytes at
offsets 1 to 5 is `0xAA`. After the first seven bytes nothing is committed and the decoder is in
`WaitSync1`. What does not hold: with the sync byte of `FRAME 170, 5` damaged, and with the decoder in
`B2` at the start, the good frame is lost (V22, V20d). -/
def Obligations.ResyncAfterOneCorruptedByte : Prop :=
  (∀ (s : State) (fx fy gx gy : ℤ) (k : ℕ) (b : Byte), s.cfg.valid → s.fsm = .waitSync1 →
    -32767 ≤ fx → fx ≤ 32767 → -32767 ≤ fy → fy ≤ 32767 →
    -32767 ≤ gx → gx ≤ 32767 → -32767 ≤ gy → gy ≤ 32767 →
    k < 7 → (frameBytes fx fy)[k]? ≠ some b →
    (k = 0 → ∀ j, 1 ≤ j → j ≤ 5 → (frameBytes fx fy)[j]? ≠ some 0xAA#8) →
      ∃ t u, deliver (((frameBytes fx fy).set k b).map .rx) s = .next t
        ∧ t.fsm = .waitSync1 ∧ t.acc = s.acc
        ∧ deliver (((frameBytes fx fy).set k b ++ frameBytes gx gy).map .rx) s = .next u
        ∧ u.fsm = .waitSync1
        ∧ u.acc = ⟨fadd s.cfg.format s.acc.x (ofInt s.cfg.format gx),
            fadd s.cfg.format s.acc.y (ofInt s.cfg.format gy)⟩)
    ∧ (∀ s : State, s.cfg.valid → s.fsm = .waitSync1 →
      ∃ t, deliver (((frameBytes 170 5).set 0 0x00#8 ++ frameBytes 10 5).map .rx) s = .next t
        ∧ t.fsm = .waitSync1 ∧ t.acc = s.acc)
    ∧ (∀ s : State, s.cfg.valid → s.fsm = .b2 →
      ∃ t, deliver ((frameBytes 10 5).map .rx) s = .next t ∧ t.fsm = .waitSync1 ∧ t.acc = s.acc)

/-- R78, R26: serving a byte never touches a channel's records or the configuration and emits nothing;
it changes the accumulators only by a commit. -/
def Obligations.ReceiverTouchesOnlyItsOwn : Prop :=
  ∀ (s t : State) (b : Byte) (es : List Event), s.input = .rx b :: es → step s = .next t →
    t.channels = s.channels ∧ t.cfg = s.cfg ∧ t.free = s.free ∧ t.input = es ∧ t.out = []
      ∧ (decodeByte s.fsm s.scratch b ≠ .rxWs2Commit → t.acc = s.acc)

/-- R83, R82, R84: `PID.COMPUTE` on any channel of the bank: the four fields it writes, in the order
and association of R82, from the new integral and the old `previous_error`; nothing else changes. -/
def Obligations.PidComputeResult : Prop :=
  ∀ (s : State) (c : Fin s.cfg.nch) (k : Channel) (target current : Sys2Proof.Num),
    s.channels[c.val]? = some k →
    ∃ e i out : Sys2Proof.Num,
      e = fsub s.cfg.format target current
      ∧ (s.cfg.integralLimit = none → i = fadd s.cfg.format k.pid.integralAccumulator e)
      ∧ (∀ l, s.cfg.integralLimit = some l →
          let j := fadd s.cfg.format k.pid.integralAccumulator e
          let low := fsub s.cfg.format (ofInt s.cfg.format 0) l
          i = if flt j low then low else if flt l j then l else j)
      ∧ out = fdiv s.cfg.format
          (fadd s.cfg.format
            (fadd s.cfg.format (fmul s.cfg.format k.pid.gainP e) (fmul s.cfg.format k.pid.gainI i))
            (fmul s.cfg.format k.pid.gainD (fsub s.cfg.format e k.pid.previousError)))
          (ofInt s.cfg.format 100)
      ∧ ∃ h, exec (.pidCompute ⟨s.cfg.nch, c⟩ target current) s = .next { s with
          channels := s.channels.set c.val { k with pid := { k.pid with
            error := e, integralAccumulator := i, lastOutput := out, previousError := e } }
          sized := h }

/-- R152, R83, R94, R6: a channel index is bounded. Every index of this bank's size is one of its
`NCH` channels, numbered 1 to `NCH` in ascending order, and names a record and a configuration, so
`PID.COMPUTE` and `CH.STEP` never refuse it; an index of a bank of another size is no operand of this
machine and is refused (the refusal is the model's, log entry 8, DESIGN CHOICE). -/
def Obligations.ChannelIndexIsBounded : Prop :=
  ∀ s : State,
    (∀ c : ChannelId, c ∈ allChannels s.cfg.nch ↔ c.nch = s.cfg.nch)
    ∧ (allChannels s.cfg.nch).map (fun c => channelNumber c.index) = List.range' 1 s.cfg.nch
    ∧ (∀ c : Fin s.cfg.nch, ∃ k kc, s.channels[c.val]? = some k ∧ s.cfg.channels[c.val]? = some kc)
    ∧ (∀ (c : ChannelId) (target current : Sys2Proof.Num) (p : Setpoints),
      (c.nch = s.cfg.nch →
        (∃ t, exec (.pidCompute c target current) s = .next t) ∧ ∀ r, exec (.chStep c p) s ≠ .refused r)
      ∧ (c.nch ≠ s.cfg.nch →
        exec (.pidCompute c target current) s = .refused .otherBank
          ∧ exec (.chStep c p) s = .refused .otherBank))

/-- R83: channels are independent. `PID.COMPUTE` on two channels gives the same state in either
order. -/
def Obligations.PidChannelsAreIndependent : Prop :=
  ∀ (s : State) (c d : ChannelId) (t u t' u' : Sys2Proof.Num), c ≠ d →
    andThen (exec (.pidCompute c t u) s) (exec (.pidCompute d t' u'))
      = andThen (exec (.pidCompute d t' u') s) (exec (.pidCompute c t u))

/-- R84: with `INTEGRAL_LIMIT = none` the integral is not limited; with a limit `L` that R141 admits,
a limited integral that is not NaN lies in `[-L, L]`, and one already there is unchanged. -/
def Obligations.IntegralLimitPolicy : Prop :=
  ∀ (cfg : Config), cfg.valid →
    (cfg.integralLimit = none → ∀ i, limit cfg i = i)
    ∧ (∀ l m, cfg.integralLimit = some (.fin l m) →
        (∀ i, i ≠ .nan → Bounded l (limit cfg i)) ∧ (∀ i, Bounded l i → limit cfg i = i))

/-- R87: in exact arithmetic, with `Ki = Kd = 0` and no saturation, a tick multiplies the error of a
channel by `1 - Kp/100`. -/
def Obligations.ProportionalLoopScalesError : Prop :=
  ∀ (cfg : Config) (k : Channel) (kp t pos i prev : ℚ), cfg.valid → cfg.format = .exact →
    cfg.integralLimit = none →
    k.pid.gainP = .of kp → k.pid.gainI = .of 0 → k.pid.gainD = .of 0 →
    k.pid.integralAccumulator = .of i → k.pid.previousError = .of prev →
    k.chan.currentPosition = .of pos → InRange cfg (.of t) →
    InRange cfg (.of (pos + kp * (t - pos) / 100)) →
      ∃ pos', (tickedChannel cfg (.of t) k).chan.currentPosition = .of pos'
        ∧ (tickedChannel cfg (.of t) k).pid.error = .of (t - pos)
        ∧ t - pos' = (t - pos) * (1 - kp / 100)

/-- R81: (a) where the exact result on finite operands is a value of the format, it is the result (the
sign of a zero is free); (b) every integer up to `2^24` in magnitude and every `n / 2^k` with
`k ≤ 24` is a value, and `of_int` gives it; (c) `flt` is the order of the reals; (d) `trunc` is the
integer part, toward zero. For each of the three formats. -/
def Obligations.NumIsAdmissible : Prop :=
  ∀ f : NumFormat,
    (∀ (x y : ℚ) (a b : Bool),
      (isFiniteValue f (x + y) → ∃ m, fadd f (.fin x a) (.fin y b) = .fin (x + y) m)
      ∧ (isFiniteValue f (x - y) → ∃ m, fsub f (.fin x a) (.fin y b) = .fin (x - y) m)
      ∧ (isFiniteValue f (x * y) → ∃ m, fmul f (.fin x a) (.fin y b) = .fin (x * y) m)
      ∧ (y ≠ 0 → isFiniteValue f (x / y) → ∃ m, fdiv f (.fin x a) (.fin y b) = .fin (x / y) m))
    ∧ (∀ (n : ℤ) (k : ℕ), |n| ≤ 2 ^ 24 → k ≤ 24 →
      ofInt f n = .of n ∧ isValue f (.of n) ∧ isValue f (.of (n / 2 ^ k)))
    ∧ (∀ (x y : ℚ) (a b : Bool), flt (.fin x a) (.fin y b) = decide (x < y))
    ∧ (∀ (q : ℚ) (a : Bool), ∃ n : ℤ, trunc (.fin q a) = some n
      ∧ |(n : ℚ)| ≤ |q| ∧ |q| < |(n : ℚ)| + 1 ∧ 0 ≤ (n : ℚ) * q)

/-- R80: the binary formats round to nearest, ties to even. The rounded result is a value; no value is
nearer; where another value is as near, the result is an even number of units in the last place of the
exact result; and rounding overflows exactly from half a unit beyond the largest value on. -/
def Obligations.RoundingIsToNearestEven : Prop :=
  ∀ (f : NumFormat) (q : ℚ), f ≠ .exact →
    (∀ r, roundQ f q = some r →
      isFiniteValue f r
      ∧ (∀ v, isFiniteValue f v → |r - q| ≤ |v - q|)
      ∧ (∀ v, isFiniteValue f v → v ≠ r → |r - q| = |v - q| →
          ∃ m : ℤ, r = (2 * m : ℤ) * (2 : ℚ) ^ ulpExponent f q.num.natAbs q.den))
    ∧ (roundQ f q = none ↔
        ((2 : ℚ) ^ significandBits f - 1 / 2) * 2 ^ ((overflowExponent f : ℤ) - significandBits f) ≤ |q|)

/-- R81: the finite values of the binary formats, described without rounding: a significand of 24 (53)
bits times a power of two of exponent at least -149 (-1074), below `2^128` (`2^1024`). -/
def Obligations.FiniteValuesOfTheFormats : Prop :=
  (∀ q : ℚ, isFiniteValue .binary32 q ↔
      (∃ m e : ℤ, |m| < 2 ^ 24 ∧ -149 ≤ e ∧ q = m * 2 ^ e) ∧ |q| < 2 ^ 128)
    ∧ (∀ q : ℚ, isFiniteValue .binary64 q ↔
      (∃ m e : ℤ, |m| < 2 ^ 53 ∧ -1074 ≤ e ∧ q = m * 2 ^ e) ∧ |q| < 2 ^ 1024)
    ∧ (∀ q : ℚ, isFiniteValue .exact q)

/-- R80: every operation on values of the format gives a value of the format (a division needs a
divisor that is not zero). -/
def Obligations.ResultsAreValues : Prop :=
  ∀ (f : NumFormat) (a b : Sys2Proof.Num), isValue f a → isValue f b →
    isValue f (fadd f a b) ∧ isValue f (fsub f a b) ∧ isValue f (fmul f a b)
      ∧ ((∀ m, b ≠ .fin 0 m) → isValue f (fdiv f a b))

/-- R81: NaN and the infinities follow IEEE 754; `flt` is false when either operand is NaN, the two
zeros are equal to it, and `trunc` is undefined on NaN and the infinities. -/
def Obligations.SpecialValuesFollowIeee : Prop :=
  ∀ (f : NumFormat) (a : Sys2Proof.Num) (q : ℚ) (m n : Bool),
    (fadd f a .nan = .nan ∧ fadd f .nan a = .nan ∧ fsub f a .nan = .nan ∧ fsub f .nan a = .nan
      ∧ fmul f a .nan = .nan ∧ fmul f .nan a = .nan ∧ fdiv f a .nan = .nan ∧ fdiv f .nan a = .nan)
    ∧ (fadd f (.inf m) (.inf (!m)) = .nan ∧ fadd f (.inf m) (.inf m) = .inf m
      ∧ fadd f (.inf m) (.fin q n) = .inf m ∧ fadd f (.fin q n) (.inf m) = .inf m)
    ∧ (fsub f (.inf m) (.inf m) = .nan ∧ fsub f (.inf m) (.fin q n) = .inf m
      ∧ fsub f (.fin q n) (.inf m) = .inf (!m))
    ∧ (fmul f (.inf m) (.fin 0 n) = .nan ∧ (0 < q → fmul f (.inf m) (.fin q n) = .inf m)
      ∧ (q < 0 → fmul f (.inf m) (.fin q n) = .inf (!m)) ∧ fmul f (.inf m) (.inf m) = .inf false)
    ∧ (fdiv f (.inf m) (.inf n) = .nan ∧ (0 < q → fdiv f (.inf m) (.fin q n) = .inf m))
    ∧ (flt a .nan = false ∧ flt .nan a = false ∧ flt (.fin q m) (.inf false) = true
      ∧ flt (.inf true) (.fin q m) = true ∧ flt (.fin 0 m) (.fin 0 n) = false)
    ∧ (trunc .nan = none ∧ trunc (.inf m) = none)

/-- R93: `clamp` is idempotent, monotone and in range for values that are not NaN, leaves an in-range
value as it is, sends the infinities to the bounds, and passes NaN. -/
def Obligations.ClampProperties : Prop :=
  ∀ cfg : Config, cfg.valid →
    (∀ v, v ≠ .nan → InRange cfg (clamp cfg v))
    ∧ (∀ v, InRange cfg v → clamp cfg v = v)
    ∧ (∀ v, clamp cfg (clamp cfg v) = clamp cfg v)
    ∧ (∀ v w, v ≠ .nan → w ≠ .nan → ¬ flt w v → ¬ flt (clamp cfg w) (clamp cfg v))
    ∧ (∀ (q : ℚ) (m : Bool), q ≤ cfg.pwMin → ∃ n, clamp cfg (.fin q m) = .fin cfg.pwMin n)
    ∧ (∀ (q : ℚ) (m : Bool), cfg.pwMax ≤ q → ∃ n, clamp cfg (.fin q m) = .fin cfg.pwMax n)
    ∧ clamp cfg (.inf false) = .of cfg.pwMax ∧ clamp cfg (.inf true) = .of cfg.pwMin
    ∧ clamp cfg .nan = .nan

/-- R94, R95, R96: `CH.STEP` on any channel of the bank. Where the new position is not NaN it answers the
state in which the channel's records are those of R94's pseudocode, with one `set_pulse` call, and a
`RANGE_CLAMP` label for each of the two saturations that changes its value; where it is NaN it stops
with the fault of R96. -/
def Obligations.ChStepResult : Prop :=
  ∀ (s : State) (c : Fin s.cfg.nch) (k : Channel) (kc : ChannelConfig) (p : Setpoints), s.cfg.valid →
    s.channels[c.val]? = some k → s.cfg.channels[c.val]? = some kc →
    let t := clamp s.cfg (p.get kc.spSel)
    let pid := pidUpdate s.cfg k.pid t k.chan.currentPosition
    let sum := fadd s.cfg.format k.chan.currentPosition pid.lastOutput
    let pos := clamp s.cfg sum
    (pos ≠ .nan → ∃ w : ℕ, trunc pos = some (w : ℤ) ∧ s.cfg.pwMin ≤ w ∧ w ≤ s.cfg.pwMax
      ∧ ∃ h, exec (.chStep ⟨s.cfg.nch, c⟩ p) s = .next { s with
          channels := s.channels.set c.val
            { pid := pid
              chan := { currentPosition := pos, targetPosition := t, velocity := pid.lastOutput }
              pulse := some (BitVec.ofNat 16 w) }
          sized := h
          out := s.out ++ [.setPulse (c.val + 1) w]
          labels := s.labels ++ (if t = p.get kc.spSel then [] else [.rangeClamp])
            ++ (if pos = sum then [] else [.rangeClamp]) })
    ∧ (pos = .nan → exec (.chStep ⟨s.cfg.nch, c⟩ p) s = .fault .nanAtCast)

/-- R90, R91, R92, R98: `TICK` serves every channel once from one snapshot of the setpoints. Where no
new position is NaN it answers the state in which every channel's records are `tickedChannel`'s, the
calls `set_pulse(1, w)` to `set_pulse(NCH, w)` are emitted in that order, and everything else is
unchanged; where one is NaN the tick faults. -/
def Obligations.TickServesEveryChannelOnce : Prop :=
  ∀ s : State, s.cfg.valid →
    ((∀ k ∈ tickedChannels s, k.chan.currentPosition ≠ .nan) →
      ∃ h ls, (∀ a ∈ ls, a = .rangeClamp) ∧ exec .tick s = .next { s with
        channels := tickedChannels s
        sized := h
        out := s.out ++ tickOutputs 1 (tickedChannels s)
        labels := s.labels ++ ls })
    ∧ ((∃ k ∈ tickedChannels s, k.chan.currentPosition = .nan) → exec .tick s = .fault .nanAtCast)

/-- R92: the order in which two channels are processed does not matter to the records. -/
def Obligations.ChannelOrderDoesNotMatter : Prop :=
  ∀ (s t u : State) (c d : ChannelId) (p : Setpoints), s.cfg.valid → c ≠ d →
    andThen (exec (.chStep c p) s) (exec (.chStep d p)) = .next t →
    andThen (exec (.chStep d p) s) (exec (.chStep c p)) = .next u →
      SameHardware t u

/-- R19, R99, R14, R22, R80: the invariant holds of every next state of a state that has it: one record
for each channel, gains as configured, every number a value of the format, position and target in
range, `velocity = last_output`, `previous_error = error`, `pulse = trunc(current_position)` once
written. -/
def Obligations.StepKeepsInvariant : Prop :=
  ∀ s t : State, Inv s → step s = .next t → Inv t

/-- The state after reset has the invariant, at every configuration inside R141. -/
def Obligations.ResetHasInvariant : Prop :=
  (∀ cfg : Config, cfg.valid → Inv (State.resetWith cfg)) ∧ Inv State.reset

/-- R96, R154: the only stop of a step from a state with the invariant is the fault of R96, on a `TICK`;
in exact arithmetic, where there is no NaN, there is none. -/
def Obligations.OnlyStopIsNanOnTick : Prop :=
  ∀ s : State, Inv s →
    (∃ t, step s = .next t)
      ∨ (step s = .fault .nanAtCast ∧ (∃ es, s.input = .tick :: es) ∧ s.cfg.format ≠ .exact)

/-- R88: at the baseline range, in binary32, without an integral limit and with gains of magnitude at
most `2^60`, no step faults, and the bounds of R88 hold again: the integral stays within `2^35`, the
errors within 2000, and the PID output is finite. -/
def Obligations.BaselineNeverFaults : Prop :=
  ∀ s : State, BoundedBaseline s → ∃ t, step s = .next t ∧ BoundedBaseline t

/-- The state after reset at the default configuration is within R88's bounds. -/
def Obligations.ResetIsBoundedBaseline : Prop := BoundedBaseline State.reset

/-- R105, R106, R107: `SET_PULSE` with any integers answers a next state: an index outside `1..NCH`
changes nothing but the label; otherwise `pulse[ch]` alone is written, with the width saturated to
`[PW_MIN, PW_MAX]`. -/
def Obligations.SetPulseContract : Prop :=
  ∀ (s : State) (ch w : ℤ), s.cfg.valid →
    (ch < 1 ∨ (s.cfg.nch : ℤ) < ch →
      exec (.setPulse ch w) s = .next { s with labels := s.labels ++ [.badChannel] })
    ∧ (∀ (c : ℕ) k, ch = c + 1 → s.channels[c]? = some k →
      ∃ v : ℕ, (v : ℤ) = max (s.cfg.pwMin : ℤ) (min w s.cfg.pwMax) ∧ v ≤ 65535
        ∧ ∃ h, exec (.setPulse ch w) s = .next { s with
            channels := s.channels.set c { k with pulse := some (BitVec.ofNat 16 v) }
            sized := h
            labels := s.labels ++ (if w = v then [] else [.rangeClamp]) })

/-- R110: `SNAP` returns the accumulators and the three `ChannelState` fields of every channel, and
writes nothing. -/
def Obligations.SnapReturnsRecord : Prop :=
  ∀ s : State, exec .snap s = .next { s with out := s.out ++ [.snapshot s.acc (s.channels.map Channel.chan)] }

/-- R111: a `SNAP` inserted before any event of a trace changes nothing that the rest of the trace
does. -/
def Obligations.InsertedSnapIsInvisible : Prop :=
  ∀ (s : State) (e : Event) (es fs : List Event), s.cfg.valid →
    OutcomeRel SameHardware (deliver (es ++ .snap :: fs) s) (deliver (es ++ fs) s)
      ∧ deliver (es ++ .snap :: e :: fs) s = deliver (es ++ e :: fs) s

/-- R135: `RESET` in any state: every register at its reset value, the configuration kept, the events
still to come kept; the scratch bytes are free values (log entry 3). -/
def Obligations.ResetResult : Prop :=
  ∀ s : State, ∃ k h, exec .reset s = .next { s with
    fsm := .waitSync1
    acc := ⟨s.cfg.spReset, s.cfg.spReset⟩
    channels := s.cfg.channels.map fun kc =>
      { pid :=
          { gainP := kc.gainP, gainI := kc.gainI, gainD := kc.gainD
            error := .of 0, previousError := .of 0, integralAccumulator := .of 0, lastOutput := .of 0 }
        chan := { currentPosition := s.cfg.posReset, targetPosition := s.cfg.posReset, velocity := .of 0 }
        pulse := none }
    sized := h
    scratch := k
    free := s.free + 5 }

/-- R28, R5: the state after reset at the default configuration: two channels, decoder in `WaitSync1`,
accumulators and positions 3000, PID state 0, no pulse. (The gains are the model's choice, log entry
2.) -/
def Obligations.ResetStateValues : Prop :=
  State.reset.fsm = .waitSync1 ∧ State.reset.acc = ⟨.of 3000, .of 3000⟩ ∧ State.reset.channels.length = 2
    ∧ State.reset.input = []
    ∧ ∀ k ∈ State.reset.channels, k.pid.error = .of 0 ∧ k.pid.previousError = .of 0
      ∧ k.pid.integralAccumulator = .of 0 ∧ k.pid.lastOutput = .of 0
      ∧ k.chan = ⟨.of 3000, .of 3000, .of 0⟩ ∧ k.pulse = none

/-- R109, R26: no event but `TICK` and `RESET` changes a channel's records, `pulse` among them. -/
def Obligations.ChannelsHoldBetweenTicks : Prop :=
  ∀ (s t : State) (e : Event) (es : List Event), s.input = e :: es → e ≠ .tick → e ≠ .reset →
    step s = .next t → t.channels = s.channels

/-- R14, R23, R101: no step writes the configuration; every step keeps every channel's gains, or loads
the configured ones (`RESET`); a `TICK` never writes the accumulators, `fsm` or `scratch`. -/
def Obligations.ConstantsAndOwnership : Prop :=
  ∀ (s t : State) (e : Event) (es : List Event), s.input = e :: es → step s = .next t →
    t.cfg = s.cfg ∧ t.input = es
      ∧ (e ≠ .reset → t.channels.map Channel.gains = s.channels.map Channel.gains)
      ∧ (e = .reset → t.channels.map Channel.gains
          = s.cfg.channels.map (fun kc => (kc.gainP, kc.gainI, kc.gainD)))
      ∧ (e = .tick → t.acc = s.acc ∧ t.fsm = s.fsm ∧ t.scratch = s.scratch)

/-- R12: scratch bytes that the frame in progress has not written are unobservable. Over any event
trace, two states that differ only there give outcomes that differ only there. -/
def Obligations.DeadScratchIsUnobservable : Prop :=
  ∀ (s t : State) (es : List Event), SameButDeadScratch s t →
    OutcomeRel SameButDeadScratch (deliver es s) (deliver es t)

/-- R125: a byte and a tick that are pending together may be served in either order, and the two orders
differ only when the byte is the seventh of a valid frame. -/
def Obligations.ByteAndTickCommute : Prop :=
  ∀ (s : State) (b : Byte), decodeByte s.fsm s.scratch b ≠ .rxWs2Commit →
    OutcomeRel SameHardware (deliver [.rx b, .tick] s) (deliver [.tick, .rx b] s)

/-- R73: while an accumulator is an integer of magnitude below `2^24 - 32767`, a commit is exact in
every admissible format. -/
def Obligations.CommitIsExactInSmallRange : Prop :=
  ∀ (s : State) (x y : ℤ) (a b : Bool), s.acc = ⟨.fin x a, .fin y b⟩ →
    |x| < 2 ^ 24 - 32767 → |y| < 2 ^ 24 - 32767 →
      ∃ m n t, exec .rxWs2Commit s = .next t
        ∧ t.acc = ⟨.fin (x + scratchDx s.scratch : ℤ) m, .fin (y + scratchDy s.scratch : ℤ) n⟩

/-- R73's remark, with the bound of log entry 16 (DEDUCED): in binary32 a delta is absorbed entirely
by an accumulator of magnitude above `2^39`. R73 says from `2^39` on; at exactly `2^39` the delta
-32767 is not absorbed. -/
def Obligations.LargeAccumulatorAbsorbsDelta : Prop :=
  (∀ (q : ℚ) (a : Bool) (d : ℤ), isFiniteValue .binary32 q → 2 ^ 39 < |q| → -32767 ≤ d → d ≤ 32767 →
      ∃ m, fadd .binary32 (.fin q a) (ofInt .binary32 d) = .fin q m)
    ∧ ∀ a : Bool, isFiniteValue .binary32 (2 ^ 39 : ℚ)
      ∧ ∃ m, fadd .binary32 (.fin (2 ^ 39 : ℚ) a) (ofInt .binary32 (-32767)) = .fin (2 ^ 39 - 32768 : ℚ) m

/-- R115: no state depends on a label or an output: exchanging them changes no operation's effect on
the rest of the state. -/
def Obligations.LabelsAreNeverRead : Prop :=
  ∀ (i : Instr) (s : State) (os : List Output) (ls : List Anomaly),
    OutcomeRel SameHardware (exec i { s with out := os, labels := ls }) (exec i s)

/-- R116, R119: no operation notes a missed deadline. -/
def Obligations.NoDeadlineIsEverNoted : Prop :=
  ∀ (i : Instr) (s t : State), exec i s = .next t → .deadlineMiss ∉ s.labels → .deadlineMiss ∉ t.labels
end

