-- ==== Sys2Proof/Laws/State.lean ====
section
/-!
SUPPORT. One lemma per field per update of `State`, true by `rfl`, and the laws of reading a channel's
records after writing one.
-/

namespace Sys2Proof.Machine

/-- Two machines are equal where their fields are. -/
theorem State.eq_of_fields {s t : State} (cfg : s.cfg = t.cfg) (fsm : s.fsm = t.fsm) (scratch : s.scratch = t.scratch)
    (acc : s.acc = t.acc) (channels : s.channels = t.channels) (input : s.input = t.input) (out : s.out = t.out)
    (labels : s.labels = t.labels) (free : s.free = t.free) : s = t := by
  obtain ⟨⟨⟩, _⟩ := s
  obtain ⟨⟨⟩, _⟩ := t
  simp only at cfg fsm scratch acc channels input out labels free
  subst_vars
  rfl

section
variable (s : State) (a : Anomaly) (o : Output) (c : Fin s.cfg.nch) (k : Channel) (dx dy : Int) (v : Num) (b : Bool)

@[simp] theorem note_cfg : (s.note a).cfg = s.cfg := rfl
@[simp] theorem note_fsm : (s.note a).fsm = s.fsm := rfl
@[simp] theorem note_scratch : (s.note a).scratch = s.scratch := rfl
@[simp] theorem note_acc : (s.note a).acc = s.acc := rfl
@[simp] theorem note_channels : (s.note a).channels = s.channels := rfl
@[simp] theorem note_input : (s.note a).input = s.input := rfl
@[simp] theorem note_out : (s.note a).out = s.out := rfl
@[simp] theorem note_labels : (s.note a).labels = s.labels ++ [a] := rfl
@[simp] theorem note_free : (s.note a).free = s.free := rfl

@[simp] theorem noteIf_cfg : (s.noteIf b a).cfg = s.cfg := rfl
@[simp] theorem noteIf_fsm : (s.noteIf b a).fsm = s.fsm := rfl
@[simp] theorem noteIf_scratch : (s.noteIf b a).scratch = s.scratch := rfl
@[simp] theorem noteIf_acc : (s.noteIf b a).acc = s.acc := rfl
@[simp] theorem noteIf_channels : (s.noteIf b a).channels = s.channels := rfl
@[simp] theorem noteIf_input : (s.noteIf b a).input = s.input := rfl
@[simp] theorem noteIf_out : (s.noteIf b a).out = s.out := rfl
@[simp] theorem noteIf_free : (s.noteIf b a).free = s.free := rfl
@[simp] theorem noteIf_labels : (s.noteIf b a).labels = s.labels ++ (if b then [a] else []) := rfl

@[simp] theorem noteClamp_cfg : (s.noteClamp v).cfg = s.cfg := rfl
@[simp] theorem noteClamp_fsm : (s.noteClamp v).fsm = s.fsm := rfl
@[simp] theorem noteClamp_scratch : (s.noteClamp v).scratch = s.scratch := rfl
@[simp] theorem noteClamp_acc : (s.noteClamp v).acc = s.acc := rfl
@[simp] theorem noteClamp_channels : (s.noteClamp v).channels = s.channels := rfl
@[simp] theorem noteClamp_input : (s.noteClamp v).input = s.input := rfl
@[simp] theorem noteClamp_out : (s.noteClamp v).out = s.out := rfl
@[simp] theorem noteClamp_free : (s.noteClamp v).free = s.free := rfl
@[simp] theorem noteClamp_labels : (s.noteClamp v).labels = s.labels ++ rangeLabels s.cfg v := rfl

@[simp] theorem emit_cfg : (s.emit o).cfg = s.cfg := rfl
@[simp] theorem emit_fsm : (s.emit o).fsm = s.fsm := rfl
@[simp] theorem emit_scratch : (s.emit o).scratch = s.scratch := rfl
@[simp] theorem emit_acc : (s.emit o).acc = s.acc := rfl
@[simp] theorem emit_channels : (s.emit o).channels = s.channels := rfl
@[simp] theorem emit_input : (s.emit o).input = s.input := rfl
@[simp] theorem emit_out : (s.emit o).out = s.out ++ [o] := rfl
@[simp] theorem emit_labels : (s.emit o).labels = s.labels := rfl
@[simp] theorem emit_free : (s.emit o).free = s.free := rfl

@[simp] theorem setChannel_cfg : (s.setChannel c k).cfg = s.cfg := rfl
@[simp] theorem setChannel_fsm : (s.setChannel c k).fsm = s.fsm := rfl
@[simp] theorem setChannel_scratch : (s.setChannel c k).scratch = s.scratch := rfl
@[simp] theorem setChannel_acc : (s.setChannel c k).acc = s.acc := rfl
@[simp] theorem setChannel_channels : (s.setChannel c k).channels = s.channels.set c k := rfl
@[simp] theorem setChannel_input : (s.setChannel c k).input = s.input := rfl
@[simp] theorem setChannel_out : (s.setChannel c k).out = s.out := rfl
@[simp] theorem setChannel_labels : (s.setChannel c k).labels = s.labels := rfl
@[simp] theorem setChannel_free : (s.setChannel c k).free = s.free := rfl

@[simp] theorem spAdd_cfg : (s.spAdd dx dy).cfg = s.cfg := rfl
@[simp] theorem spAdd_fsm : (s.spAdd dx dy).fsm = s.fsm := rfl
@[simp] theorem spAdd_scratch : (s.spAdd dx dy).scratch = s.scratch := rfl
@[simp] theorem spAdd_acc : (s.spAdd dx dy).acc = ⟨fadd s.cfg.format s.acc.x (ofInt s.cfg.format dx),
    fadd s.cfg.format s.acc.y (ofInt s.cfg.format dy)⟩ := rfl
@[simp] theorem spAdd_channels : (s.spAdd dx dy).channels = s.channels := rfl
@[simp] theorem spAdd_input : (s.spAdd dx dy).input = s.input := rfl
@[simp] theorem spAdd_out : (s.spAdd dx dy).out = s.out := rfl
@[simp] theorem spAdd_labels : (s.spAdd dx dy).labels = s.labels := rfl
@[simp] theorem spAdd_free : (s.spAdd dx dy).free = s.free := rfl
end

section
variable (s : State) (c : Fin s.cfg.nch)

theorem channel_eq : s.channel c = s.channels[c.val]'(by rw [s.sized]; exact c.isLt) := rfl

@[simp] theorem channel_note (a : Anomaly) : (s.note a).channel c = s.channel c := rfl
@[simp] theorem channel_noteIf (b : Bool) (a : Anomaly) : (s.noteIf b a).channel c = s.channel c := rfl
@[simp] theorem channel_noteClamp (v : Num) : (s.noteClamp v).channel c = s.channel c := rfl
@[simp] theorem channel_emit (o : Output) : (s.emit o).channel c = s.channel c := rfl

/-- Reading back the channel just written. -/
@[simp] theorem channel_setChannel_self (k : Channel) : (s.setChannel c k).channel c = k :=
  List.getElem_set_self _

/-- Writing one channel leaves every other alone. -/
theorem channel_setChannel_ne {d : Fin s.cfg.nch} (k : Channel) (h : c ≠ d) :
    (s.setChannel c k).channel d = s.channel d :=
  List.getElem_set_ne (fun e => h (Fin.ext e)) _

/-- The later of two writes to a channel stays. -/
@[simp] theorem setChannel_setChannel (k k' : Channel) :
    State.setChannel (s.setChannel c k) c k' = s.setChannel c k' := by
  simp [State.setChannel]

/-- Writing a function of the record just written. -/
theorem setChannel_update (k : Channel) (f : Channel → Channel) :
    State.setChannel (s.setChannel c k) c (f ((s.setChannel c k).channel c)) = s.setChannel c (f k) :=
  (setChannel_setChannel s c k _).trans (congrArg (fun k' => s.setChannel c (f k')) (channel_setChannel_self s c k))

/-- Writes to two channels commute. -/
theorem setChannel_comm {d : Fin s.cfg.nch} (k k' : Channel) (h : c ≠ d) :
    State.setChannel (s.setChannel c k) d k' = State.setChannel (s.setChannel d k') c k := by
  simp only [State.setChannel, State.mk.injEq, Block.mk.injEq, true_and, and_true]
  exact List.set_comm _ _ fun e => h (Fin.ext e)

@[simp] theorem noteIf_false (a : Anomaly) : s.noteIf false a = s := by simp [State.noteIf]

/-- An index of this bank names its own position. -/
@[simp] theorem index?_own : s.index? ⟨s.cfg.nch, c⟩ = some c := by
  simp [State.index?]
end

/-- Equal states have equal pulses written to positions of equal number. -/
theorem writePulse_congr {s t : State} (h : s = t) {c : Fin s.cfg.nch} {d : Fin t.cfg.nch} (hc : c.val = d.val)
    (w : Width) : s.writePulse c w = t.writePulse d w := by
  subst h; obtain rfl := Fin.ext hc; rfl

/-- Equal states, and positions of equal number, are integrated and sent alike. -/
theorem integrateAndSend_congr {s t : State} (h : s = t) {c : Fin s.cfg.nch} {d : Fin t.cfg.nch}
    (hc : c.val = d.val) : integrateAndSend s c = integrateAndSend t d := by
  subst h; obtain rfl := Fin.ext hc; rfl

/-- An index of a bank of another size names nothing in this one. -/
theorem index?_other {s : State} {c : ChannelId} (h : c.nch ≠ s.cfg.nch) : s.index? c = none := dif_neg h

/-- An index that names a position is that position's index. -/
theorem index?_eq_some {s : State} {c : ChannelId} {i : Fin s.cfg.nch} :
    s.index? c = some i ↔ c = ⟨s.cfg.nch, i⟩ := by
  refine ⟨fun h => ?_, by rintro rfl; exact index?_own s i⟩
  unfold State.index? at h
  split at h
  · obtain ⟨n, j⟩ := c
    obtain rfl : n = s.cfg.nch := by assumption
    cases h; rfl
  · cases h

end Sys2Proof.Machine
end

