-- ==== Sys2Proof/Laws/FrameReceiver.lean ====
section
/-!
SUPPORT. What serving a byte can do: the operation is the decoded one, it always answers a next state,
and what that state may differ in is said once (`execRx_cases`).
-/

namespace Sys2Proof.Machine

/-- Serving a byte is performing the operation it decodes to (R47). -/
theorem execRx_eq (b : Byte) (s : State) : execRx b s = exec (decodeByte s.fsm s.scratch b) s := by
  unfold execRx decodeByte
  cases s.fsm <;> simp only <;> try rfl
  · split <;> rfl
  · split
    · split <;> rfl
    · rfl

/-- Everything a served byte can do: from `WaitSync1` open a frame or skip; store a payload byte and
advance; from `WaitSync2` commit, or drop the frame. -/
theorem execRx_cases (b : Byte) (s : State) :
    (s.fsm = .waitSync1 ∧ b = Config.sync ∧ execRx b s = .next { s with fsm := .b0 })
    ∨ (s.fsm = .waitSync1 ∧ b ≠ Config.sync ∧ execRx b s = .next (s.note .malformedSync))
    ∨ (s.fsm = .b0 ∧ execRx b s = .next { s with scratch := { s.scratch with s0 := b }, fsm := .b1 })
    ∨ (s.fsm = .b1 ∧ execRx b s = .next { s with scratch := { s.scratch with s1 := b }, fsm := .b2 })
    ∨ (s.fsm = .b2 ∧ execRx b s = .next { s with scratch := { s.scratch with s2 := b }, fsm := .b3 })
    ∨ (s.fsm = .b3 ∧ execRx b s = .next { s with scratch := { s.scratch with s3 := b }, fsm := .b4 })
    ∨ (s.fsm = .b4 ∧ execRx b s = .next { s with scratch := { s.scratch with s4 := b }, fsm := .waitSync2 })
    ∨ (s.fsm = .waitSync2 ∧ b = Config.term ∧ checksumValid s.scratch ∧
        execRx b s = .next { s.spAdd (scratchDx s.scratch) (scratchDy s.scratch) with fsm := .waitSync1 })
    ∨ (s.fsm = .waitSync2 ∧ b = Config.term ∧ checksumValid s.scratch = false ∧
        execRx b s = .next { s.note .malformedSum with fsm := .waitSync1 })
    ∨ (s.fsm = .waitSync2 ∧ b ≠ Config.term ∧
        execRx b s = .next { s.note .malformedTerm with fsm := .waitSync1 }) := by
  unfold execRx
  cases s.fsm <;> simp only [reduceCtorEq, false_and, true_and, false_or, or_false]
  · by_cases hb : b = Config.sync
    · exact .inl ⟨hb, by rw [if_pos hb]; rfl⟩
    · exact .inr ⟨hb, by rw [if_neg hb]; rfl⟩
  · rfl
  · rfl
  · rfl
  · rfl
  · rfl
  · by_cases hb : b = Config.term
    · cases hc : checksumValid s.scratch
      · exact .inr (.inl ⟨hb, rfl, by rw [if_pos hb]; rfl⟩)
      · exact .inl ⟨hb, rfl, by rw [if_pos hb]; rfl⟩
    · exact .inr (.inr ⟨hb, by rw [if_neg hb]; rfl⟩)

/-- The accumulators after a byte: the deltas added where it commits, and as before otherwise. -/
def accAfterByte (b : Byte) (s : State) : Setpoints :=
  if s.fsm = .waitSync2 ∧ b = Config.term ∧ checksumValid s.scratch then
    ⟨fadd s.cfg.format s.acc.x (ofInt s.cfg.format (scratchDx s.scratch)),
      fadd s.cfg.format s.acc.y (ofInt s.cfg.format (scratchDy s.scratch))⟩
  else s.acc

/-- A served byte answers a next state that differs from `s` at most in the decoder's own state, the
accumulators and the labels. -/
theorem execRx_next (b : Byte) (s : State) : ∃ f k ls, execRx b s = .next { s with
    fsm := f, scratch := k, acc := accAfterByte b s, labels := ls } := by
  rcases execRx_cases b s with ⟨hf, _, h⟩ | ⟨hf, _, h⟩ | ⟨hf, h⟩ | ⟨hf, h⟩ | ⟨hf, h⟩ | ⟨hf, h⟩ | ⟨hf, h⟩ |
    ⟨hf, hb, hc, h⟩ | ⟨hf, hb, hc, h⟩ | ⟨hf, hb, h⟩
  case inr.inr.inr.inr.inr.inr.inr.inl =>
    exact ⟨.waitSync1, s.scratch, s.labels, by rw [h, accAfterByte, if_pos ⟨hf, hb, hc⟩]; rfl⟩
  all_goals
    have ha : accAfterByte b s = s.acc := if_neg (by simp_all)
    exact ⟨_, _, _, by rw [h, ha]; try rfl⟩

end Sys2Proof.Machine
end

