-- ==== Sys2Proof/Laws/Num.lean ====
section
/-!
SUPPORT. What the arithmetic of `NUM` does: the exact operations are those of `ℚ`, and rounding gives
the nearest value of the format. Later proofs cite these lemmas and do not unfold the rounding.
-/

namespace Sys2Proof.Machine

@[simp] theorem addQ_eq (a b : ℚ) : addQ a b = a + b := (Rat.add_def' a b).symm
@[simp] theorem subQ_eq (a b : ℚ) : subQ a b = a - b := (Rat.sub_def' a b).symm
@[simp] theorem mulQ_eq (a b : ℚ) : mulQ a b = a * b := (Rat.mul_def' a b).symm
@[simp] theorem divQ_eq (a b : ℚ) : divQ a b = a / b := (Rat.div_def' a b).symm
@[simp] theorem ltQ_eq (a b : ℚ) : ltQ a b = decide (a < b) := by simp [ltQ, Rat.lt_iff]

/-- The magnitude of a rational as its numerator and denominator give it. -/
theorem natAbs_num_div_den (q : ℚ) : (q.num.natAbs : ℚ) / q.den = |q| := by
  rw [Nat.cast_natAbs, Int.cast_abs]
  conv_rhs => rw [← Rat.num_div_den q, abs_div, Nat.abs_cast]

theorem scale2_eq (m u : ℤ) : scale2 m u = m * (2 : ℚ) ^ u := by
  rw [scale2, Rat.mkRat_eq_div]
  rcases le_total 0 u with h | h
  · obtain ⟨k, rfl⟩ := Int.eq_ofNat_of_zero_le h
    simp
  · obtain ⟨k, hk⟩ := Int.eq_ofNat_of_zero_le (Int.neg_nonneg.mpr h)
    obtain rfl : u = -k := by omega
    simp [zpow_neg, div_eq_mul_inv]

/-- The power of two `u` split over numerator and denominator scales the fraction by `2^(-u)`. -/
theorem scaled_fraction (n d : ℕ) (u : ℤ) :
    ((n * 2 ^ (-u).toNat : ℕ) : ℚ) / ((d * 2 ^ u.toNat : ℕ) : ℚ) = (n : ℚ) / d / 2 ^ u := by
  rcases le_total 0 u with h | h
  · obtain ⟨k, rfl⟩ := Int.eq_ofNat_of_zero_le h
    simp [div_div]
  · obtain ⟨k, hk⟩ := Int.eq_ofNat_of_zero_le (Int.neg_nonneg.mpr h)
    obtain rfl : u = -k := by omega
    simp [zpow_neg, div_eq_mul_inv]
    ring

theorem floorLog2_spec {n d : ℕ} (hn : 0 < n) (hd : 0 < d) :
    (2 : ℚ) ^ floorLog2 n d ≤ (n : ℚ) / d ∧ (n : ℚ) / d < 2 ^ (floorLog2 n d + 1) := by
  have hd' : (0 : ℚ) < d := by exact_mod_cast hd
  have n1 : ((2 ^ n.log2 : ℕ) : ℚ) ≤ n := by exact_mod_cast Nat.log2_self_le hn.ne'
  have n2 : (n : ℚ) < ((2 ^ (n.log2 + 1) : ℕ) : ℚ) := by exact_mod_cast Nat.lt_log2_self
  have d1 : ((2 ^ d.log2 : ℕ) : ℚ) ≤ d := by exact_mod_cast Nat.log2_self_le hd.ne'
  have d2 : (d : ℚ) < ((2 ^ (d.log2 + 1) : ℕ) : ℚ) := by exact_mod_cast Nat.lt_log2_self
  push_cast at n1 n2 d1 d2
  have upper : (n : ℚ) / d < 2 ^ ((n.log2 : ℤ) - d.log2 + 1) := by
    rw [div_lt_iff₀ hd', show ((n.log2 : ℤ) - d.log2 + 1) = ((n.log2 + 1 : ℕ) : ℤ) - d.log2 by push_cast; ring,
      zpow_sub₀ (by norm_num), zpow_natCast, zpow_natCast, div_mul_eq_mul_div, lt_div_iff₀ (by positivity)]
    exact mul_lt_mul n2 d1 (by positivity) (by positivity)
  have lower : (2 : ℚ) ^ ((n.log2 : ℤ) - d.log2 - 1) ≤ (n : ℚ) / d := by
    rw [le_div_iff₀ hd', show ((n.log2 : ℤ) - d.log2 - 1) = (n.log2 : ℤ) - ((d.log2 + 1 : ℕ) : ℤ) by push_cast; ring,
      zpow_sub₀ (by norm_num), zpow_natCast, zpow_natCast, div_mul_eq_mul_div, div_le_iff₀ (by positivity)]
    exact mul_le_mul n1 d2.le (by positivity) (by positivity)
  have test : d * 2 ^ ((n.log2 : ℤ) - d.log2).toNat ≤ n * 2 ^ (-((n.log2 : ℤ) - d.log2)).toNat ↔
      (2 : ℚ) ^ ((n.log2 : ℤ) - d.log2) ≤ (n : ℚ) / d := by
    set u := (n.log2 : ℤ) - d.log2
    rw [← one_le_div₀ (b := (2 : ℚ) ^ u) (by positivity), ← scaled_fraction,
      one_le_div₀ (by exact_mod_cast Nat.mul_pos hd (by positivity))]
    exact_mod_cast Iff.rfl
  unfold floorLog2
  simp only
  split_ifs with h
  · exact ⟨test.mp h, upper⟩
  · rw [test, not_le] at h
    exact ⟨lower, by simpa using h⟩

theorem roundHalfEven_spec (n : ℕ) {d : ℕ} (hd : 0 < d) :
    |(roundHalfEven n d : ℚ) - n / d| ≤ 1 / 2 := by
  have hd' : (0 : ℚ) < d := by exact_mod_cast hd
  have e : (n : ℚ) / d = (n / d : ℕ) + (n % d : ℕ) / d := by
    have := Nat.div_add_mod n d
    field_simp
    exact_mod_cast by linarith
  have r0 : (0 : ℚ) ≤ (n % d : ℕ) / d := by positivity
  have r1 : ((n % d : ℕ) : ℚ) / d < 1 := by
    rw [div_lt_one hd']; exact_mod_cast Nat.mod_lt n hd
  rw [e, abs_le]
  unfold roundHalfEven
  simp only
  split_ifs with h
  · have : ((n % d : ℕ) : ℚ) / d ≤ 1 / 2 := by
      rw [div_le_div_iff₀ hd' (by norm_num)]
      have : n % d * 2 ≤ 1 * d := by omega
      exact_mod_cast this
    constructor <;> linarith
  · have : (1 : ℚ) / 2 ≤ ((n % d : ℕ) : ℚ) / d := by
      rw [div_le_div_iff₀ (by norm_num) hd']
      have : 1 * d ≤ n % d * 2 := by omega
      exact_mod_cast this
    push_cast
    constructor <;> linarith

/-- A tie is rounded to an even number. -/
theorem roundHalfEven_even_of_tie {n d : ℕ} (hd : 0 < d) (h : |(roundHalfEven n d : ℚ) - n / d| = 1 / 2) :
    roundHalfEven n d % 2 = 0 := by
  have hd' : (0 : ℚ) < d := by exact_mod_cast hd
  have e : (n : ℚ) / d = (n / d : ℕ) + (n % d : ℕ) / d := by
    have := Nat.div_add_mod n d
    field_simp
    exact_mod_cast (by linarith : n = d * (n / d) + n % d)
  have hm : ((n % d : ℕ) : ℚ) / d < 1 := by
    rw [div_lt_one hd']; exact_mod_cast Nat.mod_lt n hd
  have h0 : (0 : ℚ) ≤ ((n % d : ℕ) : ℚ) / d := by positivity
  have half : ((n % d : ℕ) : ℚ) / d = 1 / 2 → 2 * (n % d) = d := by
    intro h
    rw [div_eq_iff hd'.ne'] at h
    exact_mod_cast (by linarith : (2 : ℚ) * (n % d : ℕ) = d)
  rw [e] at h
  unfold roundHalfEven at h ⊢
  generalize ((n % d : ℕ) : ℚ) / d = x at *
  simp only at h ⊢
  split_ifs at h ⊢ with hc
  · rw [show ((n / d : ℕ) : ℚ) - ((n / d : ℕ) + x) = -x by ring, abs_neg, abs_of_nonneg h0] at h
    have := half h
    omega
  · rw [Nat.cast_add, Nat.cast_one, show ((n / d : ℕ) : ℚ) + 1 - ((n / d : ℕ) + x) = 1 - x by ring,
      abs_of_pos (by linarith)] at h
    have := half (by linarith)
    omega

/-- Rounding to the nearest integer is closer than every other integer. -/
theorem nearest_int {x : ℚ} {m : ℤ} (h : |(m : ℚ) - x| ≤ 1 / 2) (k : ℤ) : |(m : ℚ) - x| ≤ |(k : ℚ) - x| := by
  rcases eq_or_ne k m with rfl | hk
  · exact le_rfl
  · have h1 : (1 : ℚ) ≤ |(k : ℚ) - m| := by
      rw [← Int.cast_sub, ← Int.cast_abs]
      exact_mod_cast Int.one_le_abs (sub_ne_zero.mpr hk)
    have h2 : |(k : ℚ) - m| ≤ |(k : ℚ) - x| + |(m : ℚ) - x| := by
      have := abs_sub_le (k : ℚ) x m
      rwa [abs_sub_comm x] at this
    linarith

/-- The values of a format were there no largest exponent: `m * 2^e` with a significand `m` of the
format's width and an exponent not below its least (all rationals, for exact arithmetic). -/
def ValueUnbounded (f : NumFormat) (q : ℚ) : Prop :=
  f = .exact ∨ ∃ m e : ℤ, |m| < 2 ^ significandBits f ∧ minExponent f ≤ e ∧ q = m * 2 ^ e

theorem significandBits_pos (f : NumFormat) : 0 < significandBits f := by cases f <;> decide

/-- The unit in the last place of `q`. -/
def ulp (f : NumFormat) (q : ℚ) : ℤ := ulpExponent f q.num.natAbs q.den

/-- `roundUnbounded` is a whole number of units in the last place, nearest to `q`. -/
theorem roundUnbounded_spec (f : NumFormat) (q : ℚ) :
    ∃ m : ℤ, roundUnbounded f q = m * 2 ^ ulp f q ∧ |(m : ℚ) - q / 2 ^ ulp f q| ≤ 1 / 2 := by
  have hb := roundHalfEven_spec (q.num.natAbs * 2 ^ (-ulp f q).toNat)
    (d := q.den * 2 ^ (ulp f q).toNat) (Nat.mul_pos q.den_pos (by positivity))
  rw [scaled_fraction, natAbs_num_div_den] at hb
  refine ⟨_, scale2_eq _ _, ?_⟩
  split_ifs with h
  · rw [abs_of_neg (Rat.num_neg.mp h)] at hb
    rw [show (q / 2 ^ ulp f q) = -(-q / 2 ^ ulp f q) by ring]
    push_cast
    rw [← abs_neg]
    convert hb using 2
    unfold roundedUnits ulp
    ring
  · rw [abs_of_nonneg (Rat.num_nonneg.mp (not_lt.mp h))] at hb
    exact hb

theorem abs_lt_of_ulp (f : NumFormat) (q : ℚ) : |q| < 2 ^ (significandBits f + ulp f q : ℤ) := by
  rcases eq_or_ne q 0 with rfl | hq
  · simp only [abs_zero]; positivity
  · have h := (floorLog2_spec (n := q.num.natAbs) (d := q.den)
      (Int.natAbs_pos.mpr (Rat.num_ne_zero.mpr hq)) q.den_pos).2
    rw [natAbs_num_div_den] at h
    refine h.trans_le (zpow_le_zpow_right₀ (by norm_num) ?_)
    have := significandBits_pos f
    unfold ulp ulpExponent
    omega

theorem valueUnbounded_roundUnbounded (f : NumFormat) (q : ℚ) : ValueUnbounded f (roundUnbounded f q) := by
  obtain ⟨m, hm, hn⟩ := roundUnbounded_spec f q
  have hu : minExponent f ≤ ulp f q := le_max_right _ _
  have hp := significandBits_pos f
  right
  have hx : |q / 2 ^ ulp f q| < 2 ^ significandBits f := by
    rw [abs_div, abs_of_pos (a := (2 : ℚ) ^ ulp f q) (by positivity), div_lt_iff₀ (by positivity),
      ← zpow_natCast, ← zpow_add₀ (by norm_num)]
    exact abs_lt_of_ulp f q
  have hm' : |(m : ℚ)| < 2 ^ significandBits f + 1 := by
    have := abs_sub_abs_le_abs_sub (m : ℚ) (q / 2 ^ ulp f q)
    linarith
  have hle : |m| ≤ 2 ^ significandBits f := by
    rw [← Int.cast_abs] at hm'
    have : |m| < 2 ^ significandBits f + 1 := by exact_mod_cast hm'
    omega
  rcases lt_or_eq_of_le hle with h | h
  · exact ⟨m, ulp f q, h, hu, hm⟩
  · obtain ⟨s, hs⟩ : ∃ s, significandBits f = s + 1 := ⟨significandBits f - 1, by omega⟩
    rw [hs, pow_succ] at h
    have hpow : (0 : ℤ) < 2 ^ s := by positivity
    rcases abs_choice m with hc | hc <;> rw [hc] at h
    · refine ⟨2 ^ s, ulp f q + 1, ?_, by omega, ?_⟩
      · rw [abs_of_pos hpow, hs, pow_succ]; omega
      · rw [hm, h, zpow_add₀ (by norm_num)]; push_cast; ring
    · refine ⟨-2 ^ s, ulp f q + 1, ?_, by omega, ?_⟩
      · rw [abs_neg, abs_of_pos hpow, hs, pow_succ]; omega
      · rw [hm, show m = -(2 ^ s * 2) by omega, zpow_add₀ (by norm_num)]; push_cast; ring

/-- No value of a binary format is closer to `q` than `roundUnbounded f q`. -/
theorem roundUnbounded_nearest {f : NumFormat} (hf : f ≠ .exact) (q : ℚ) {v : ℚ} (hv : ValueUnbounded f v) :
    |roundUnbounded f q - q| ≤ |v - q| := by
  obtain ⟨m, hm, hn⟩ := roundUnbounded_spec f q
  have hpos : (0 : ℚ) < 2 ^ ulp f q := by positivity
  -- beats every multiple of the unit
  have grid : ∀ k : ℤ, |roundUnbounded f q - q| ≤ |(k : ℚ) * 2 ^ ulp f q - q| := by
    intro k
    have h := mul_le_mul_of_nonneg_right (nearest_int hn k) hpos.le
    rw [← abs_of_pos hpos, ← abs_mul, ← abs_mul, abs_of_pos hpos, sub_mul, sub_mul,
      div_mul_cancel₀ _ hpos.ne', ← hm] at h
    exact h
  obtain h | ⟨k, e, hk, he, rfl⟩ := hv
  · exact absurd h hf
  rcases le_or_gt (ulp f q) e with hue | hue
  · obtain ⟨j, rfl⟩ := Int.le.dest hue
    have := grid (k * 2 ^ j)
    rwa [show (((k * 2 ^ j : ℤ) : ℚ) * 2 ^ ulp f q) = (k : ℚ) * 2 ^ (ulp f q + j) by
      rw [zpow_add₀ (by norm_num), zpow_natCast]; push_cast; ring] at this
  · rcases eq_or_ne q 0 with rfl | hq
    · have := grid 0
      rw [Int.cast_zero, zero_mul, sub_zero, sub_self, abs_zero] at this
      rw [sub_zero, sub_zero]
      exact this.trans (abs_nonneg _)
    have hlog := floorLog2_spec (n := q.num.natAbs) (d := q.den)
      (Int.natAbs_pos.mpr (Rat.num_ne_zero.mpr hq)) q.den_pos
    rw [natAbs_num_div_den] at hlog
    set g := floorLog2 q.num.natAbs q.den
    have hp := significandBits_pos f
    have hg : ulp f q = g - (significandBits f - 1 : ℕ) := by
      unfold ulp ulpExponent at hue ⊢
      omega
    have hvlt : |(k : ℚ) * 2 ^ e| < 2 ^ g := by
      rw [abs_mul, abs_of_pos (a := (2 : ℚ) ^ e) (by positivity)]
      have h1 : |(k : ℚ)| < 2 ^ significandBits f := by rw [← Int.cast_abs]; exact_mod_cast hk
      calc |(k : ℚ)| * 2 ^ e < 2 ^ significandBits f * 2 ^ e := mul_lt_mul_of_pos_right h1 (by positivity)
        _ = 2 ^ ((significandBits f : ℤ) + e) := by rw [zpow_add₀ (by norm_num), zpow_natCast]
        _ ≤ 2 ^ g := zpow_le_zpow_right₀ (by norm_num) (by omega)
    obtain ⟨j, hj⟩ := Int.le.dest (show ulp f q ≤ g by omega)
    have h2 : (2 : ℚ) ^ g = ((2 ^ j : ℤ) : ℚ) * 2 ^ ulp f q := by
      rw [← hj, zpow_add₀ (by norm_num), zpow_natCast]; push_cast; ring
    rw [abs_lt] at hvlt
    rcases lt_or_gt_of_ne hq with hneg | hposq
    · rw [abs_of_neg hneg] at hlog
      have := grid (-2 ^ j)
      rw [Int.cast_neg, neg_mul, ← h2, abs_of_nonneg (by linarith : (0 : ℚ) ≤ -2 ^ g - q)] at this
      rw [abs_of_nonneg (by linarith : (0 : ℚ) ≤ (k : ℚ) * 2 ^ e - q)]
      linarith
    · rw [abs_of_pos hposq] at hlog
      have := grid (2 ^ j)
      rw [← h2, abs_of_nonpos (by linarith : (2 : ℚ) ^ g - q ≤ 0)] at this
      rw [abs_of_nonpos (by linarith : (k : ℚ) * 2 ^ e - q ≤ 0)]
      linarith

theorem roundUnbounded_value {f : NumFormat} (hf : f ≠ .exact) {q : ℚ} (hq : ValueUnbounded f q) :
    roundUnbounded f q = q := by
  have := roundUnbounded_nearest hf q hq
  rw [sub_self, abs_zero] at this
  exact sub_eq_zero.mp (abs_eq_zero.mp (le_antisymm this (abs_nonneg _)))

theorem roundUnbounded_mono {f : NumFormat} (hf : f ≠ .exact) {a b : ℚ} (h : a ≤ b) :
    roundUnbounded f a ≤ roundUnbounded f b := by
  rcases eq_or_lt_of_le h with rfl | h
  · exact le_rfl
  by_contra hc
  rw [not_le] at hc
  have ha := roundUnbounded_nearest hf a (valueUnbounded_roundUnbounded f b)
  have hb := roundUnbounded_nearest hf b (valueUnbounded_roundUnbounded f a)
  rw [← sq_le_sq] at ha hb
  nlinarith

@[simp] theorem inRange_eq (f : NumFormat) (q : ℚ) : inRange f q = decide (|q| < 2 ^ overflowExponent f) := by
  have hd : (0 : ℚ) < q.den := by exact_mod_cast q.den_pos
  rw [inRange, decide_eq_decide, ← natAbs_num_div_den, div_lt_iff₀ hd]
  exact_mod_cast Iff.rfl

@[simp] theorem roundQ_exact (q : ℚ) : roundQ .exact q = some q := rfl

theorem roundQ_binary {f : NumFormat} (hf : f ≠ .exact) (q : ℚ) :
    roundQ f q = if |roundUnbounded f q| < 2 ^ overflowExponent f then some (roundUnbounded f q) else none := by
  cases f <;> first | exact absurd rfl hf | simp [roundQ]

/-- What the finite values of a format are: the values of its significand and exponent ranges. -/
theorem isFiniteValue_iff (f : NumFormat) (q : ℚ) :
    isFiniteValue f q ↔ ValueUnbounded f q ∧ (f = .exact ∨ |q| < 2 ^ overflowExponent f) := by
  rw [isFiniteValue, beq_iff_eq]
  by_cases hf : f = .exact
  · subst hf; simp [ValueUnbounded]
  rw [roundQ_binary hf]
  constructor
  · intro h
    split_ifs at h with hr
    rw [Option.some_inj] at h
    rw [h] at hr
    exact ⟨h ▸ valueUnbounded_roundUnbounded f q, .inr hr⟩
  · rintro ⟨hv, hr⟩
    rw [roundUnbounded_value hf hv, if_pos (hr.resolve_left hf)]

theorem roundQ_value {f : NumFormat} {q : ℚ} (h : isFiniteValue f q) : roundQ f q = some q := by
  simpa [isFiniteValue] using h

theorem roundQ_isFiniteValue {f : NumFormat} {q r : ℚ} (h : roundQ f q = some r) : isFiniteValue f r := by
  by_cases hf : f = .exact
  · subst hf; simp [isFiniteValue]
  rw [roundQ_binary hf] at h
  split_ifs at h with hr
  obtain rfl := Option.some_inj.mp h
  exact (isFiniteValue_iff f _).mpr ⟨valueUnbounded_roundUnbounded f q, .inr hr⟩

/-- Rounding does not leave a symmetric range whose bound is a value of the format. -/
theorem roundQ_abs_le {f : NumFormat} {q b : ℚ} (hb : isFiniteValue f b) (h : |q| ≤ b) :
    ∃ r, roundQ f q = some r ∧ |r| ≤ b := by
  by_cases hf : f = .exact
  · subst hf; exact ⟨q, rfl, h⟩
  obtain ⟨hv, hr⟩ := (isFiniteValue_iff f b).mp hb
  have hr := hr.resolve_left hf
  have hv' : ValueUnbounded f (-b) := by
    obtain h | ⟨m, e, hm, he, rfl⟩ := hv
    · exact .inl h
    · exact .inr ⟨-m, e, by simpa using hm, he, by push_cast; ring⟩
  have h1 := roundUnbounded_mono hf (abs_le.mp h).1
  have h2 := roundUnbounded_mono hf (abs_le.mp h).2
  rw [roundUnbounded_value hf hv] at h2
  rw [roundUnbounded_value hf hv'] at h1
  have hle := abs_le.mpr ⟨h1, h2⟩
  have hb0 : |b| = b := abs_of_nonneg ((abs_nonneg q).trans h)
  exact ⟨_, by rw [roundQ_binary hf, if_pos (by linarith)], hle⟩

/-- Every fraction `n / 2^k` with `|n| ≤ 2^24` and `k ≤ 24` is a value of every admissible format. -/
theorem isFiniteValue_dyadic (f : NumFormat) {n : ℤ} {k : ℕ} (hn : |n| ≤ 2 ^ 24) (hk : k ≤ 24) :
    isFiniteValue f ((n : ℚ) / 2 ^ k) := by
  rw [isFiniteValue_iff]
  by_cases hf : f = .exact
  · exact ⟨.inl hf, .inl hf⟩
  have hp : 24 ≤ significandBits f := by cases f <;> decide
  have he : minExponent f ≤ -24 := by cases f <;> decide
  have ho : (2 : ℚ) ^ 25 ≤ 2 ^ overflowExponent f :=
    pow_le_pow_right₀ (by norm_num) (by cases f <;> decide)
  have hp' : (2 : ℤ) ^ 24 ≤ 2 ^ significandBits f := pow_le_pow_right₀ (by norm_num) hp
  have hn' : |(n : ℚ)| ≤ 2 ^ 24 := by rw [← Int.cast_abs]; exact_mod_cast hn
  refine ⟨.inr ?_, .inr ?_⟩
  · rcases lt_or_eq_of_le hn with h | h
    · exact ⟨n, -k, by omega, by omega, by rw [zpow_neg, zpow_natCast, div_eq_mul_inv]⟩
    · rcases abs_choice n with hc | hc <;> rw [hc] at h
      · refine ⟨2 ^ 23, 1 - k, by norm_num; omega, by omega, ?_⟩
        rw [h, zpow_sub₀ (by norm_num), zpow_natCast]; push_cast; ring
      · refine ⟨-2 ^ 23, 1 - k, by norm_num; omega, by omega, ?_⟩
        rw [show n = -2 ^ 24 by omega, zpow_sub₀ (by norm_num), zpow_natCast]; push_cast; ring
  · rw [abs_div, abs_of_pos (a := (2 : ℚ) ^ k) (by positivity)]
    have : |(n : ℚ)| / 2 ^ k ≤ |(n : ℚ)| := div_le_self (abs_nonneg _) (one_le_pow₀ (by norm_num))
    have : (2 : ℚ) ^ 24 < 2 ^ 25 := by norm_num
    linarith

theorem isFiniteValue_int (f : NumFormat) {n : ℤ} (hn : |n| ≤ 2 ^ 24) : isFiniteValue f (n : ℚ) := by
  simpa using isFiniteValue_dyadic f hn (Nat.zero_le 24)

theorem pack_value {f : NumFormat} {q : ℚ} (h : isFiniteValue f q) (zs : Bool) :
    pack f q zs = .fin q (decide (q = 0) && zs && hasSpecials f) := by
  simp [pack, roundQ_value h]

theorem hasSpecials_of_overflow {f : NumFormat} {q : ℚ} (h : roundQ f q = none) : hasSpecials f := by
  cases f <;> first | rfl | simp at h

/-- Every result of an operation is a value of the format. -/
theorem pack_isValue (f : NumFormat) (q : ℚ) (zs : Bool) : isValue f (pack f q zs) := by
  unfold pack
  split
  · exact hasSpecials_of_overflow ‹_›
  · rename_i r hr
    simp only [isValue, roundQ_isFiniteValue hr, Bool.true_and]
    cases hasSpecials f <;> by_cases h0 : r = 0 <;> simp [h0]

theorem pack_ne_nan (f : NumFormat) (q : ℚ) (zs : Bool) : pack f q zs ≠ .nan := by
  unfold pack; split <;> simp

/-- `of_int` is exact on every integer of R81 (b). -/
theorem ofInt_eq (f : NumFormat) {n : ℤ} (hn : |n| ≤ 2 ^ 24) : ofInt f n = .of n := by
  rw [ofInt, pack_value (isFiniteValue_int f hn)]
  simp

@[simp] theorem flt_nan_left (a : Num) : flt .nan a = false := by cases a <;> rfl
@[simp] theorem flt_nan_right (a : Num) : flt a .nan = false := by cases a <;> rfl
@[simp] theorem flt_fin (x y : ℚ) (m n : Bool) : flt (.fin x m) (.fin y n) = decide (x < y) := by simp [flt]
@[simp] theorem flt_inf_fin (s : Bool) (y : ℚ) (n : Bool) : flt (.inf s) (.fin y n) = s := rfl
@[simp] theorem flt_fin_inf (x : ℚ) (m t : Bool) : flt (.fin x m) (.inf t) = !t := rfl
@[simp] theorem flt_inf_inf (s t : Bool) : flt (.inf s) (.inf t) = (s && !t) := rfl

@[simp] theorem fadd_nan_left (f : NumFormat) (a : Num) : fadd f .nan a = .nan := by cases a <;> rfl
@[simp] theorem fadd_nan_right (f : NumFormat) (a : Num) : fadd f a .nan = .nan := by cases a <;> rfl
@[simp] theorem fsub_nan_left (f : NumFormat) (a : Num) : fsub f .nan a = .nan := by cases a <;> rfl
@[simp] theorem fsub_nan_right (f : NumFormat) (a : Num) : fsub f a .nan = .nan := by cases a <;> rfl
@[simp] theorem fmul_nan_left (f : NumFormat) (a : Num) : fmul f .nan a = .nan := by cases a <;> rfl
@[simp] theorem fmul_nan_right (f : NumFormat) (a : Num) : fmul f a .nan = .nan := by cases a <;> rfl
@[simp] theorem fdiv_nan_left (f : NumFormat) (a : Num) : fdiv f .nan a = .nan := by cases a <;> rfl

end Sys2Proof.Machine
end

