-- ==== Sys2Proof/Laws/Ops.lean ====
section
/-!
SUPPORT. What the shared operations do: sequencing, a valid configuration's bounds, the saturations,
and which results are values of the format.
-/

namespace Sys2Proof.Machine

@[simp] theorem andThen_next (s : State) (k : State → Host.Outcome State Fault Refusal) :
    andThen (.next s) k = k s := rfl
@[simp] theorem andThen_fault (r : Fault) (k : State → Host.Outcome State Fault Refusal) :
    andThen (.fault r) k = .fault r := rfl
@[simp] theorem andThen_refused (r : Refusal) (k : State → Host.Outcome State Fault Refusal) :
    andThen (.refused r) k = .refused r := rfl

theorem andThen_eq_next {o : Host.Outcome State Fault Refusal} {k : State → Host.Outcome State Fault Refusal}
    {t : State} : andThen o k = .next t ↔ ∃ s, o = .next s ∧ k s = .next t := by
  cases o <;> simp

theorem andThen_assoc (o : Host.Outcome State Fault Refusal) (k l : State → Host.Outcome State Fault Refusal) :
    andThen (andThen o k) l = andThen o fun s => andThen (k s) l := by
  cases o <;> rfl

/-- What R141 says of a configuration, in the terms of the proofs. -/
structure ValidConfig (cfg : Config) : Prop where
  channels : cfg.channels ≠ []
  range : cfg.pwMin ≤ cfg.pwMax
  width : cfg.pwMax ≤ 65535
  pos_value : isValue cfg.format cfg.posReset
  pos_range : InRange cfg cfg.posReset
  sp_value : isValue cfg.format cfg.spReset
  gains : ∀ k ∈ cfg.channels, isValue cfg.format k.gainP ∧ isFinite k.gainP ∧ isValue cfg.format k.gainI ∧
    isFinite k.gainI ∧ isValue cfg.format k.gainD ∧ isFinite k.gainD
  limit : ∀ l, cfg.integralLimit = some l → ∃ q m, l = .fin q m ∧ 0 ≤ q ∧ isFiniteValue cfg.format q ∧
    isValue cfg.format l

theorem ofInt_width (f : NumFormat) {n : ℕ} (h : n ≤ 65535) : ofInt f n = .of n := by
  have := ofInt_eq f (n := n) (by rw [abs_of_nonneg (by positivity)]; norm_num; omega)
  simpa using this

theorem validConfig {cfg : Config} (h : cfg.valid) : ValidConfig cfg := by
  simp only [Config.valid, Bool.and_eq_true, Bool.not_eq_true', decide_eq_true_eq, List.all_eq_true] at h
  obtain ⟨⟨⟨⟨⟨⟨⟨⟨⟨hc, hr⟩, hw⟩, hp⟩, hpf⟩, hlo⟩, hhi⟩, hsp⟩, hg⟩, hl⟩ := h
  refine ⟨by rintro h; simp [h] at hc, hr, hw, hp, ?_, hsp, fun k hk => ?_, fun l h => ?_⟩
  · cases hq : cfg.posReset with
    | fin q m =>
      rw [hq, ofInt_width _ (by omega)] at hlo
      rw [hq, ofInt_width _ hw] at hhi
      simp only [flt, ltQ_eq, decide_eq_false_iff_not, not_lt] at hlo hhi
      exact ⟨q, m, rfl, hlo, hhi⟩
    | inf m => simp [hq, isFinite] at hpf
    | nan => simp [hq, isFinite] at hpf
  · have := hg k hk
    tauto
  · rw [h] at hl
    simp only [Bool.and_eq_true, Bool.not_eq_true'] at hl
    obtain ⟨⟨hv, hf⟩, hs⟩ := hl
    cases l with
    | fin q m =>
      simp only [flt, ltQ_eq, decide_eq_false_iff_not, not_lt] at hs
      simp only [isValue, Bool.and_eq_true] at hv
      exact ⟨q, m, rfl, hs, hv.1, by simpa [isValue] using hv⟩
    | inf m => simp [isFinite] at hf
    | nan => simp [isFinite] at hf

section
variable {cfg : Config} (h : cfg.valid)
include h

theorem rangeLo_eq : rangeLo cfg = .of cfg.pwMin :=
  ofInt_width _ ((validConfig h).range.trans (validConfig h).width)

theorem rangeHi_eq : rangeHi cfg = .of cfg.pwMax := ofInt_width _ (validConfig h).width

/-- `clamp` on a finite number, in the order of the reals. -/
theorem clamp_fin (q : ℚ) (m : Bool) :
    clamp cfg (.fin q m) = if q < cfg.pwMin then .of cfg.pwMin else if (cfg.pwMax : ℚ) < q then .of cfg.pwMax
      else .fin q m := by
  simp [clamp, rangeLo_eq h, rangeHi_eq h, flt]

theorem clamp_inf (m : Bool) : clamp cfg (.inf m) = if m then .of cfg.pwMin else .of cfg.pwMax := by
  cases m <;> simp [clamp, rangeLo_eq h, rangeHi_eq h, flt]

omit h in
@[simp] theorem clamp_nan (cfg : Config) : clamp cfg .nan = .nan := by simp [clamp]

/-- A value that is not NaN is saturated into the range. -/
theorem clamp_cases (v : Num) : (v = .nan ∧ clamp cfg v = .nan) ∨ InRange cfg (clamp cfg v) := by
  have hr : (cfg.pwMin : ℚ) ≤ cfg.pwMax := by exact_mod_cast (validConfig h).range
  cases v with
  | nan => exact .inl ⟨rfl, clamp_nan cfg⟩
  | inf m =>
    right
    rw [clamp_inf h]
    cases m
    · exact ⟨_, _, rfl, hr, le_rfl⟩
    · exact ⟨_, _, rfl, le_rfl, hr⟩
  | fin q m =>
    right
    rw [clamp_fin h]
    split_ifs with h1 h2
    · exact ⟨_, _, rfl, le_rfl, hr⟩
    · exact ⟨_, _, rfl, hr, le_rfl⟩
    · exact ⟨_, _, rfl, not_lt.mp h1, not_lt.mp h2⟩

theorem clamp_of_inRange {v : Num} (hv : InRange cfg v) : clamp cfg v = v := by
  obtain ⟨q, m, rfl, h1, h2⟩ := hv
  rw [clamp_fin h, if_neg (not_lt.mpr h1), if_neg (not_lt.mpr h2)]

omit h in
theorem clamp_isValue {v : Num} (hv : isValue cfg.format v) : isValue cfg.format (clamp cfg v) := by
  unfold clamp rangeLo rangeHi ofInt
  split_ifs
  · exact pack_isValue _ _ _
  · exact pack_isValue _ _ _
  · exact hv

/-- The label is noted exactly where the value is changed. -/
theorem clamps_iff (v : Num) : clamps cfg v ↔ clamp cfg v ≠ v := by
  have hr : (cfg.pwMin : ℚ) ≤ cfg.pwMax := by exact_mod_cast (validConfig h).range
  cases v with
  | nan => simp [clamps]
  | inf m => cases m <;> simp [clamps, rangeLo_eq h, rangeHi_eq h, clamp_inf h, flt]
  | fin q m =>
    rw [clamp_fin h]
    simp only [clamps, rangeLo_eq h, rangeHi_eq h, flt, ltQ_eq, Bool.or_eq_true, decide_eq_true_eq]
    split_ifs with h1 h2
    · simp only [h1, true_or, ne_eq, Num.fin.injEq, not_and, true_iff]
      rintro rfl; exact absurd h1 (lt_irrefl _)
    · simp only [h2, or_true, ne_eq, Num.fin.injEq, not_and, true_iff]
      rintro rfl; exact absurd h2 (lt_irrefl _)
    · simp [h1, h2]

/-- The cast of a number in range is a width in range, and saturating it again does nothing. -/
theorem trunc_inRange {v : Num} (hv : InRange cfg v) :
    ∃ w : ℕ, trunc v = some (w : ℤ) ∧ cfg.pwMin ≤ w ∧ w ≤ cfg.pwMax ∧ w ≤ 65535 ∧ clampi cfg w = w := by
  obtain ⟨q, m, rfl, h1, h2⟩ := hv
  have hw := (validConfig h).width
  have hd : (0 : ℚ) < q.den := by exact_mod_cast q.den_pos
  have e := Rat.num_div_den q
  have n0 : 0 ≤ q.num := Rat.num_nonneg.mpr ((Nat.cast_nonneg _).trans h1)
  obtain ⟨n, hn⟩ := Int.eq_ofNat_of_zero_le n0
  rw [hn] at e
  have l1 : cfg.pwMin ≤ n / q.den := by
    rw [Nat.le_div_iff_mul_le q.den_pos]
    rw [← e, le_div_iff₀ hd] at h1
    exact_mod_cast h1
  have l2 : n / q.den ≤ cfg.pwMax := by
    rw [← e, div_le_iff₀ hd] at h2
    exact Nat.div_le_of_le_mul (by rw [mul_comm]; exact_mod_cast h2)
  refine ⟨n / q.den, ?_, l1, l2, l2.trans hw, ?_⟩
  · simp [trunc, hn, Int.tdiv]
  · unfold clampi
    rw [if_neg (by omega), if_neg (by omega)]
end

theorem trunc_eq_none {cfg : Config} (h : cfg.valid) (v : Num) : trunc (clamp cfg v) = none ↔ clamp cfg v = .nan := by
  rcases clamp_cases h v with ⟨rfl, hc⟩ | hr
  · simp [hc, trunc]
  · obtain ⟨w, hw, -⟩ := trunc_inRange h hr
    rw [hw]
    obtain ⟨q, m, hq, -⟩ := hr
    simp [hq]

theorem isFiniteValue_zero (f : NumFormat) : isFiniteValue f 0 := by
  simpa using isFiniteValue_int f (n := 0) (by norm_num)

theorem fadd_isValue {f : NumFormat} {a b : Num} (ha : isValue f a) (hb : isValue f b) : isValue f (fadd f a b) := by
  cases a <;> cases b <;> simp only [fadd] <;>
    first | exact pack_isValue _ _ _ | exact ha | exact hb | (split <;> exact ha)

theorem fsub_isValue {f : NumFormat} {a b : Num} (ha : isValue f a) (hb : isValue f b) : isValue f (fsub f a b) := by
  cases a <;> cases b <;> simp only [fsub] <;>
    first | exact pack_isValue _ _ _ | exact ha | exact hb | (split <;> exact ha)

theorem fmul_isValue {f : NumFormat} {a b : Num} (ha : isValue f a) (hb : isValue f b) : isValue f (fmul f a b) := by
  cases a <;> cases b <;> simp only [fmul] <;>
    first | exact pack_isValue _ _ _ | exact ha | exact hb | (split <;> first | exact ha | exact hb)

theorem fdiv_isValue {f : NumFormat} {a b : Num} (ha : isValue f a) (hb : isValue f b) (h0 : ∀ m, b ≠ .fin 0 m) :
    isValue f (fdiv f a b) := by
  cases a <;> cases b <;> simp only [fdiv] <;> try first | exact pack_isValue _ _ _ | exact ha | exact hb
  · rename_i q m r n
    have hr : r ≠ 0 := fun h => h0 n (by rw [h])
    rw [if_neg hr]
    exact pack_isValue _ _ _
  · simp only [isValue, isFiniteValue_zero, decide_true, Bool.true_and]
    rename_i q m n
    cases hasSpecials f <;> simp

theorem ofInt_isValue (f : NumFormat) (n : ℤ) : isValue f (ofInt f n) := pack_isValue _ _ _

theorem ofInt_hundred (f : NumFormat) : ofInt f Config.pidDiv = .of 100 := by
  simpa [Config.pidDiv] using ofInt_eq f (n := 100) (by norm_num)

theorem limit_isValue {cfg : Config} (h : cfg.valid) {i : Num} (hi : isValue cfg.format i) :
    isValue cfg.format (limit cfg i) := by
  unfold limit
  split
  · exact hi
  · rename_i l hl
    obtain ⟨q, m, -, -, -, hv⟩ := (validConfig h).limit l hl
    simp only
    split_ifs
    · exact fsub_isValue (ofInt_isValue _ _) hv
    · exact hv
    · exact hi

/-- Every result of the PID expression is a value of the format. -/
theorem pidOutput_isValue {f : NumFormat} {kp ki kd e i prev : Num} (h1 : isValue f kp) (h2 : isValue f ki)
    (h3 : isValue f kd) (h4 : isValue f e) (h5 : isValue f i) (h6 : isValue f prev) :
    isValue f (pidOutput f kp ki kd e i prev) := by
  unfold pidOutput
  refine fdiv_isValue (fadd_isValue (fadd_isValue (fmul_isValue h1 h4) (fmul_isValue h2 h5))
    (fmul_isValue h3 (fsub_isValue h4 h6))) (ofInt_isValue _ _) fun m => ?_
  rw [ofInt_hundred]
  simp

end Sys2Proof.Machine
end

