-- ==== Sys2Proof/Laws/Parametric.lean ====
section
/-!
SUPPORT. No operation reads the events still to come, the outputs or the labels (R115, R29): performing
it commutes with exchanging the first and with putting others before the last two. And no operation but
`RESET` reads the counter of free bytes.
-/

namespace Sys2Proof.Machine

/-- `s` with other events to come, and with outputs and labels put before its own. -/
def State.put (inp : List Event) (os : List Output) (ls : List Anomaly) (s : State) : State :=
  { s with input := inp, out := os ++ s.out, labels := ls ++ s.labels }

/-- A function of the next state, where there is one. -/
def mapNext (g : State → State) : Host.Outcome State Fault Refusal → Host.Outcome State Fault Refusal
  | .next s => .next (g s)
  | .fault r => .fault r
  | .refused r => .refused r

section
variable (inp : List Event) (os : List Output) (ls : List Anomaly) (s : State)

@[simp] theorem put_cfg : (s.put inp os ls).cfg = s.cfg := rfl
@[simp] theorem put_fsm : (s.put inp os ls).fsm = s.fsm := rfl
@[simp] theorem put_scratch : (s.put inp os ls).scratch = s.scratch := rfl
@[simp] theorem put_acc : (s.put inp os ls).acc = s.acc := rfl
@[simp] theorem put_channels : (s.put inp os ls).channels = s.channels := rfl
@[simp] theorem put_input : (s.put inp os ls).input = inp := rfl
@[simp] theorem put_out : (s.put inp os ls).out = os ++ s.out := rfl
@[simp] theorem put_labels : (s.put inp os ls).labels = ls ++ s.labels := rfl
@[simp] theorem put_free : (s.put inp os ls).free = s.free := rfl
@[simp] theorem put_index? (c : ChannelId) : (s.put inp os ls).index? c = s.index? c := rfl
@[simp] theorem put_channel (c : Fin s.cfg.nch) : (s.put inp os ls).channel c = s.channel c := rfl
theorem put_setChannel (c : Fin s.cfg.nch) (k : Channel) : (s.put inp os ls).setChannel c k = (s.setChannel c k).put inp os ls := rfl
theorem put_note (a : Anomaly) : (s.put inp os ls).note a = (s.note a).put inp os ls := by simp [State.note, State.put]
theorem put_noteIf (b : Bool) (a : Anomaly) : (s.put inp os ls).noteIf b a = (s.noteIf b a).put inp os ls := by
  simp [State.noteIf, State.put]
theorem put_noteClamp (v : Num) : (s.put inp os ls).noteClamp v = (s.noteClamp v).put inp os ls := by
  simp [State.noteClamp, State.put]
theorem put_emit (o : Output) : (s.put inp os ls).emit o = (s.emit o).put inp os ls := by simp [State.emit, State.put]
theorem put_writePulse (c : Fin s.cfg.nch) (w : Width) :
    (s.put inp os ls).writePulse c w = (s.writePulse c w).put inp os ls := rfl
theorem put_pidCompute (c : Fin s.cfg.nch) (t u : Num) :
    (s.put inp os ls).pidCompute c t u = (s.pidCompute c t u).put inp os ls := rfl
theorem put_aimAndCompute (c : Fin s.cfg.nch) (raw : Num) :
    (s.put inp os ls).aimAndCompute c raw = (s.aimAndCompute c raw).put inp os ls := by
  simp [State.aimAndCompute, State.pidCompute, State.setChannel, State.noteClamp, State.put]
  rfl
end

theorem andThen_mapNext {g : State → State} {o : Host.Outcome State Fault Refusal}
    {k : State → Host.Outcome State Fault Refusal} (h : ∀ s, k (g s) = mapNext g (k s)) :
    andThen (mapNext g o) k = mapNext g (andThen o k) := by
  cases o <;> simp [mapNext, h]

section
variable (inp : List Event) (os : List Output) (ls : List Anomaly) (s : State)

theorem execRx_put (b : Byte) : execRx b (s.put inp os ls) = mapNext (State.put inp os ls) (execRx b s) := by
  rcases execRx_cases b s with ⟨hf, hb, h⟩ | ⟨hf, hb, h⟩ | ⟨hf, h⟩ | ⟨hf, h⟩ | ⟨hf, h⟩ | ⟨hf, h⟩ | ⟨hf, h⟩ |
    ⟨hf, hb, hc, h⟩ | ⟨hf, hb, hc, h⟩ | ⟨hf, hb, h⟩ <;> rw [h]
  · subst hb; simp [execRx, hf, execRxWs1Sync, mapNext, State.put]
  · simp [execRx, hf, hb, execRxWs1Skip, mapNext, put_note]
  · simp [execRx, hf, execRxB0, mapNext, State.put]
  · simp [execRx, hf, execRxB1, mapNext, State.put]
  · simp [execRx, hf, execRxB2, mapNext, State.put]
  · simp [execRx, hf, execRxB3, mapNext, State.put]
  · simp [execRx, hf, execRxB4, mapNext, State.put]
  · subst hb; simp [execRx, hf, hc, execRxWs2Commit, mapNext, State.put, State.spAdd]
  · subst hb; simp [execRx, hf, hc, execRxWs2Badsum, mapNext, State.put, State.note]
  · simp [execRx, hf, hb, execRxWs2Abort, mapNext, State.put, State.note]

theorem execRxAll_put (bs : List Byte) :
    execRxAll bs (s.put inp os ls) = mapNext (State.put inp os ls) (execRxAll bs s) := by
  induction bs generalizing s with
  | nil => rfl
  | cons b bs ih => rw [execRxAll, execRxAll, execRx_put, andThen_mapNext ih]

theorem execPidCompute_put (c : ChannelId) (t u : Num) :
    execPidCompute c t u (s.put inp os ls) = mapNext (State.put inp os ls) (execPidCompute c t u s) := by
  unfold execPidCompute
  rw [put_index?]
  cases s.index? c <;> rfl

theorem execSetPulse_put (ch w : Int) :
    execSetPulse ch w (s.put inp os ls) = mapNext (State.put inp os ls) (execSetPulse ch w s) := by
  unfold execSetPulse
  simp only [put_cfg, put_note]
  split
  · exact congrArg Host.Outcome.next (writePulse_congr (put_noteIf inp os ls s _ _) rfl _)
  · rfl

theorem integrateAndSend_put (c : Fin s.cfg.nch) :
    integrateAndSend (s.put inp os ls) c = mapNext (State.put inp os ls) (integrateAndSend s c) := by
  unfold integrateAndSend
  simp only [put_cfg, put_channel]
  split
  · rfl
  · rw [← execSetPulse_put]
    congr 1
    simp [State.emit, State.setChannel, State.noteClamp, State.put]

theorem execChStep_put (c : ChannelId) (p : Setpoints) :
    execChStep c p (s.put inp os ls) = mapNext (State.put inp os ls) (execChStep c p s) := by
  unfold execChStep
  rw [put_index?]
  cases s.index? c with
  | none => rfl
  | some i =>
    exact (integrateAndSend_congr (put_aimAndCompute inp os ls s i _) rfl).trans
      (integrateAndSend_put inp os ls (s.aimAndCompute i (p.get (s.cfg.channel i).spSel)) i)

theorem stepChannels_put (p : Setpoints) (cs : List ChannelId) :
    stepChannels p cs (s.put inp os ls) = mapNext (State.put inp os ls) (stepChannels p cs s) := by
  induction cs generalizing s with
  | nil => rfl
  | cons c cs ih => rw [stepChannels, stepChannels, execChStep_put, andThen_mapNext ih]

/-- No operation reads the events still to come, the outputs or the labels. -/
theorem exec_put (i : Instr) : exec i (s.put inp os ls) = mapNext (State.put inp os ls) (exec i s) := by
  cases i with
  | rxWs1Sync => rfl
  | rxWs1Skip b => exact congrArg Host.Outcome.next (put_note inp os ls s _)
  | rxB0 b => rfl
  | rxB1 b => rfl
  | rxB2 b => rfl
  | rxB3 b => rfl
  | rxB4 b => rfl
  | rxWs2Commit => rfl
  | rxWs2Badsum => simp [exec, execRxWs2Badsum, mapNext, State.put, State.note]
  | rxWs2Abort b => simp [exec, execRxWs2Abort, mapNext, State.put, State.note]
  | pidCompute c t u => exact execPidCompute_put inp os ls s c t u
  | tick => exact stepChannels_put inp os ls s _ _
  | chStep c p => exact execChStep_put inp os ls s c p
  | setPulse ch w => exact execSetPulse_put inp os ls s ch w
  | snap => exact congrArg Host.Outcome.next (put_emit inp os ls s _)
  | reset => rfl
  | frame7 p0 p1 p2 p3 cs => exact execRxAll_put inp os ls s _
end

/-- `s` with another count of free bytes used. -/
def State.withFree (n : Nat) (s : State) : State := { s with free := n }

section
variable (n : Nat) (s : State)

theorem execRx_withFree (b : Byte) : execRx b (s.withFree n) = mapNext (State.withFree n) (execRx b s) := by
  have hf : (s.withFree n).fsm = s.fsm := rfl
  unfold execRx
  rw [hf]
  cases s.fsm <;> simp only <;> try rfl
  · split <;> rfl
  · split
    · have hk : (s.withFree n).scratch = s.scratch := rfl
      rw [hk]
      split <;> rfl
    · rfl

theorem execRxAll_withFree (bs : List Byte) :
    execRxAll bs (s.withFree n) = mapNext (State.withFree n) (execRxAll bs s) := by
  induction bs generalizing s with
  | nil => rfl
  | cons b bs ih => rw [execRxAll, execRxAll, execRx_withFree, andThen_mapNext ih]

theorem execPidCompute_withFree (c : ChannelId) (t u : Num) :
    execPidCompute c t u (s.withFree n) = mapNext (State.withFree n) (execPidCompute c t u s) := by
  have hi : (s.withFree n).index? c = s.index? c := rfl
  unfold execPidCompute
  rw [hi]
  cases s.index? c <;> rfl

theorem execSetPulse_withFree (ch w : Int) :
    execSetPulse ch w (s.withFree n) = mapNext (State.withFree n) (execSetPulse ch w s) := by
  have hc : (s.withFree n).cfg = s.cfg := rfl
  unfold execSetPulse
  simp only [hc]
  split <;> rfl

theorem integrateAndSend_withFree (c : Fin s.cfg.nch) :
    integrateAndSend (s.withFree n) c = mapNext (State.withFree n) (integrateAndSend s c) := by
  have hc : (s.withFree n).cfg = s.cfg := rfl
  have hk : (s.withFree n).channel c = s.channel c := rfl
  unfold integrateAndSend
  simp only [hc, hk]
  split
  · rfl
  · rw [← execSetPulse_withFree]
    rfl

theorem execChStep_withFree (c : ChannelId) (p : Setpoints) :
    execChStep c p (s.withFree n) = mapNext (State.withFree n) (execChStep c p s) := by
  have hi : (s.withFree n).index? c = s.index? c := rfl
  unfold execChStep
  rw [hi]
  cases s.index? c with
  | none => rfl
  | some i => exact integrateAndSend_withFree n (s.aimAndCompute i (p.get (s.cfg.channel i).spSel)) i

theorem stepChannels_withFree (p : Setpoints) (cs : List ChannelId) :
    stepChannels p cs (s.withFree n) = mapNext (State.withFree n) (stepChannels p cs s) := by
  induction cs generalizing s with
  | nil => rfl
  | cons c cs ih => rw [stepChannels, stepChannels, execChStep_withFree, andThen_mapNext ih]

/-- No operation but `RESET` reads or writes the counter of free bytes. -/
theorem exec_withFree {i : Instr} (h : i ≠ .reset) :
    exec i (s.withFree n) = mapNext (State.withFree n) (exec i s) := by
  cases i with
  | reset => exact absurd rfl h
  | pidCompute c t u => exact execPidCompute_withFree n s c t u
  | tick => exact stepChannels_withFree n s _ _
  | chStep c p => exact execChStep_withFree n s c p
  | setPulse ch w => exact execSetPulse_withFree n s ch w
  | frame7 p0 p1 p2 p3 cs => exact execRxAll_withFree n s _
  | rxWs1Sync => rfl
  | rxWs1Skip b => rfl
  | rxB0 b => rfl
  | rxB1 b => rfl
  | rxB2 b => rfl
  | rxB3 b => rfl
  | rxB4 b => rfl
  | rxWs2Commit => rfl
  | rxWs2Badsum => rfl
  | rxWs2Abort b => rfl
  | snap => rfl
end

end Sys2Proof.Machine
end

