-- ==== Sys2Proof/Laws/PerInstr.lean ====
section
/-!
SUPPORT. Statements for every instruction, one lemma for each constructor of `Instr`.
`EncodeWidth`: an operation that a byte selects is one byte on the wire, a whole frame is seven, and an
event or a call is none (the table's formats BYTE, FRAME7, EVENT and CALL, R59).
-/

namespace Sys2Proof.Laws.EncodeWidth

/-- The width of the encoding is that of the table's format: one byte exactly for the operations that a
byte selects, otherwise none, or the seven of a whole frame. -/
def Statement (i : Instr) : Prop :=
  if i.inState.isSome then (encode i).length = 1
  else (encode i).length = 0 ∨ ((encode i).length = Config.frameLen ∧ i.mnemonic = "FRAME7")

theorem rxWs1Sync : Statement .rxWs1Sync := rfl
theorem rxWs1Skip (b : Byte) : Statement (.rxWs1Skip b) := rfl
theorem rxB0 (b : Byte) : Statement (.rxB0 b) := rfl
theorem rxB1 (b : Byte) : Statement (.rxB1 b) := rfl
theorem rxB2 (b : Byte) : Statement (.rxB2 b) := rfl
theorem rxB3 (b : Byte) : Statement (.rxB3 b) := rfl
theorem rxB4 (b : Byte) : Statement (.rxB4 b) := rfl
theorem rxWs2Commit : Statement .rxWs2Commit := rfl
theorem rxWs2Badsum : Statement .rxWs2Badsum := rfl
theorem rxWs2Abort (b : Byte) : Statement (.rxWs2Abort b) := rfl
theorem pidCompute (c : ChannelId) (target current : Num) : Statement (.pidCompute c target current) := .inl rfl
theorem tick : Statement .tick := .inl rfl
theorem chStep (c : ChannelId) (snap : Setpoints) : Statement (.chStep c snap) := .inl rfl
theorem setPulse (ch w : Int) : Statement (.setPulse ch w) := .inl rfl
theorem snap : Statement .snap := .inl rfl
theorem reset : Statement .reset := .inl rfl
theorem frame7 (xHi xLo yHi yLo cs : Byte) : Statement (.frame7 xHi xLo yHi yLo cs) := .inr ⟨rfl, rfl⟩

end Sys2Proof.Laws.EncodeWidth
end

