-- ==== Sys2Proof/Laws/Scheduler.lean ====
section
/-!
SUPPORT. What `PID.COMPUTE`, `SET_PULSE`, `CH.STEP` and the loop of `TICK` do, each in one equation.
-/

namespace Sys2Proof.Machine

/-- `PID.COMPUTE` on a channel of the bank. -/
theorem execPidCompute_own (s : State) (c : Fin s.cfg.nch) (t u : Num) :
    execPidCompute ⟨s.cfg.nch, c⟩ t u s = .next (s.pidCompute c t u) := by
  rw [execPidCompute, index?_own]

/-- `PID.COMPUTE` of a bank of another size is refused. -/
theorem execPidCompute_other {s : State} {c : ChannelId} (h : c.nch ≠ s.cfg.nch) (t u : Num) :
    execPidCompute c t u s = .refused .otherBank := by
  rw [execPidCompute, index?_other h]

/-- Behind its check `SET_PULSE` writes the pulse of the channel that its index numbers. -/
theorem execSetPulse_channel (s : State) (c : Fin s.cfg.nch) (w : ℤ) :
    execSetPulse (channelNumber c) w s =
      .next ((s.noteIf (clampi s.cfg w ≠ w) .rangeClamp).writePulse c (BitVec.ofInt 16 (clampi s.cfg w))) := by
  have hc := c.isLt
  have h : (1 : ℤ) ≤ channelNumber c ∧ (channelNumber c : ℤ) ≤ s.cfg.nch := by unfold channelNumber; omega
  have e : channelPosition s.cfg (channelNumber c) h = c := Fin.ext (by simp [channelPosition, channelNumber])
  rw [execSetPulse, dif_pos h, e]

/-- A width in range, sent to a channel of the bank, is written as it stands. -/
theorem execSetPulse_inRange (s : State) (c : Fin s.cfg.nch) {w : ℕ} (hw : clampi s.cfg w = w) :
    execSetPulse (channelNumber c) w s = .next (s.writePulse c (BitVec.ofNat 16 w)) := by
  rw [execSetPulse_channel]
  have e : s.noteIf (clampi s.cfg w ≠ w) .rangeClamp = s := by rw [hw]; simp
  rw [writePulse_congr e (d := c) rfl, hw, BitVec.ofInt_natCast]

theorem mem_rangeLabels {cfg : Config} {v : Num} {a : Anomaly} (h : a ∈ rangeLabels cfg v) : a = .rangeClamp := by
  unfold rangeLabels at h
  split at h <;> simp_all

/-- What a tick with this snapshot makes of a channel of the bank. -/
def State.ticked (s : State) (p : Setpoints) (c : Fin s.cfg.nch) : Channel :=
  tickedChannel s.cfg (p.get (s.cfg.channel c).spSel) (s.channel c)

/-- The labels of that: of the target's saturation and of the position's. -/
def State.tickedLabels (s : State) (p : Setpoints) (c : Fin s.cfg.nch) : List Anomaly :=
  rangeLabels s.cfg (p.get (s.cfg.channel c).spSel) ++
    rangeLabels s.cfg (fadd s.cfg.format (s.channel c).chan.currentPosition (s.ticked p c).pid.lastOutput)

theorem mem_tickedLabels {s : State} {p : Setpoints} {c : Fin s.cfg.nch} {a : Anomaly}
    (h : a ∈ s.tickedLabels p c) : a = .rangeClamp :=
  (List.mem_append.mp h).elim mem_rangeLabels mem_rangeLabels

/-- Steps 1 and 2 of `CH.STEP` in one equation. -/
theorem aimAndCompute_eq (s : State) (c : Fin s.cfg.nch) (raw : Num) :
    s.aimAndCompute c raw = (s.noteClamp raw).setChannel c
      { s.channel c with
        pid := pidUpdate s.cfg (s.channel c).pid (clamp s.cfg raw) (s.channel c).chan.currentPosition
        chan := { (s.channel c).chan with targetPosition := clamp s.cfg raw } } :=
  setChannel_update (s.noteClamp raw) c
    { s.channel c with chan := { (s.channel c).chan with targetPosition := clamp s.cfg raw } }
    fun k => { k with pid := pidUpdate s.cfg k.pid (clamp s.cfg raw) (s.channel c).chan.currentPosition }

/-- What steps 3 and 4 of `CH.STEP` make of a state whose channel holds `k`. -/
def integrated (s : State) (c : Fin s.cfg.nch) (k : Channel) : Host.Outcome State Fault Refusal :=
  let sum := fadd s.cfg.format k.chan.currentPosition k.pid.lastOutput
  let pos := clamp s.cfg sum
  if pos = .nan then .fault .nanAtCast
  else .next { s.setChannel c
      { k with chan := { k.chan with velocity := k.pid.lastOutput, currentPosition := pos }
               pulse := (trunc pos).map (BitVec.ofInt 16) } with
    out := s.out ++ [.setPulse (channelNumber c) ((trunc pos).getD 0)]
    labels := s.labels ++ rangeLabels s.cfg sum }

/-- Steps 3 and 4 of `CH.STEP` in one equation. -/
theorem integrateAndSend_eq {s : State} (h : s.cfg.valid) (c : Fin s.cfg.nch) :
    integrateAndSend s c = integrated s c (s.channel c) := by
  unfold integrateAndSend integrated
  set k := s.channel c
  set sum := fadd s.cfg.format k.chan.currentPosition k.pid.lastOutput with hsum
  set pos := clamp s.cfg sum with hpos
  rcases clamp_cases h sum with ⟨-, hn⟩ | hr
  · simp only [← hsum, ← hpos, show pos = .nan from hn, if_pos]
    rfl
  · obtain ⟨w, hw, -, -, -, hci⟩ := trunc_inRange h hr
    have hne : pos ≠ .nan := fun e => by rw [show clamp s.cfg sum = .nan from e] at hw; cases hw
    simp only [← hsum, ← hpos, if_neg hne, show trunc pos = _ from hw]
    set k' : Channel := { k with chan := { k.chan with velocity := k.pid.lastOutput, currentPosition := pos } }
    refine (execSetPulse_inRange (State.emit (.setPulse (channelNumber c) w) ((s.noteClamp sum).setChannel c k')) c
      hci).trans (congrArg Host.Outcome.next ?_)
    refine (setChannel_update (State.emit (.setPulse (channelNumber c) w) (s.noteClamp sum)) c k' fun k =>
      { k with pulse := some (BitVec.ofNat 16 w) }).trans ?_
    simp [State.emit, State.noteClamp, State.setChannel, k']

/-- `CH.STEP` in one equation (R94 to R96). -/
theorem execChStep_eq {s : State} (h : s.cfg.valid) (c : Fin s.cfg.nch) (p : Setpoints) :
    execChStep ⟨s.cfg.nch, c⟩ p s =
      if (s.ticked p c).chan.currentPosition = .nan then .fault .nanAtCast
      else .next { s.setChannel c (s.ticked p c) with
        out := s.out ++ [.setPulse (channelNumber c) ((trunc (s.ticked p c).chan.currentPosition).getD 0)]
        labels := s.labels ++ s.tickedLabels p c } := by
  set raw := p.get (s.cfg.channel c).spSel with hraw
  set k : Channel := { s.channel c with
    pid := pidUpdate s.cfg (s.channel c).pid (clamp s.cfg raw) (s.channel c).chan.currentPosition
    chan := { (s.channel c).chan with targetPosition := clamp s.cfg raw } }
  rw [execChStep, index?_own]
  refine (integrateAndSend_congr (aimAndCompute_eq s c raw) rfl).trans ?_
  refine (integrateAndSend_eq (s := (s.noteClamp raw).setChannel c k) h c).trans ?_
  refine (congrArg (integrated ((s.noteClamp raw).setChannel c k) c)
    (channel_setChannel_self (s.noteClamp raw) c k)).trans ?_
  refine if_congr Iff.rfl rfl (congrArg Host.Outcome.next ?_)
  refine State.eq_of_fields rfl rfl rfl rfl ?_ rfl rfl ?_ rfl
  · exact List.set_set ..
  · exact List.append_assoc ..

/-- `CH.STEP` of a bank of another size is refused. -/
theorem execChStep_other {s : State} {c : ChannelId} (h : c.nch ≠ s.cfg.nch) (p : Setpoints) :
    execChStep c p s = .refused .otherBank := by
  rw [execChStep, index?_other h]

theorem execSetPulse_ne_refused (ch w : ℤ) (s : State) (r : Refusal) : execSetPulse ch w s ≠ .refused r := by
  unfold execSetPulse
  split <;> simp

theorem integrateAndSend_ne_refused (s : State) (c : Fin s.cfg.nch) (r : Refusal) :
    integrateAndSend s c ≠ .refused r := by
  unfold integrateAndSend
  simp only
  split
  · simp
  · exact execSetPulse_ne_refused _ _ _ r

/-- `CH.STEP` refuses no channel of the bank. -/
theorem execChStep_ne_refused (s : State) (c : Fin s.cfg.nch) (p : Setpoints) (r : Refusal) :
    execChStep ⟨s.cfg.nch, c⟩ p s ≠ .refused r := by
  rw [execChStep, index?_own]
  exact integrateAndSend_ne_refused (State.aimAndCompute s c _) c r

/-- The positions that these indices number, each of a bank of `n`, from `first` on. -/
def Consecutive (n first : ℕ) : List ChannelId → Prop
  | [] => first = n
  | c :: cs => (∃ h : first < n, c = ⟨n, ⟨first, h⟩⟩) ∧ Consecutive n (first + 1) cs

/-- The list of all channels numbers every position, in ascending order (R92). -/
theorem consecutive_allChannels (n : ℕ) : Consecutive n 0 (allChannels n) := by
  have h : ∀ (cs : List (Fin n)) (j : ℕ), cs.map Fin.val = List.range' j (n - j) → j ≤ n →
      Consecutive n j (cs.map (ChannelId.mk n)) := by
    intro cs
    induction cs with
    | nil =>
      intro j hj hn
      have := congrArg List.length hj
      simp only [List.map_nil, List.length_nil, List.length_range'] at this
      simp only [List.map_nil, Consecutive]
      omega
    | cons c cs ih =>
      intro j hj hn
      have hl := congrArg List.length hj
      simp only [List.length_map, List.length_cons, List.length_range'] at hl
      obtain ⟨m, hm⟩ : ∃ m, n - j = m + 1 := ⟨n - j - 1, by omega⟩
      rw [hm, List.range'_succ, List.map_cons, List.cons.injEq] at hj
      refine ⟨⟨by omega, congrArg (ChannelId.mk n) (Fin.ext hj.1)⟩, ih (j + 1) ?_ (by omega)⟩
      rw [hj.2]
      congr 1
      omega
  exact h _ 0 (by simp [List.range_eq_range']) (by omega)

/-- The loop of `TICK` over the channels that are left, when those before are done: every channel's
records become `tickedChannel`'s, or the tick faults at the first NaN. -/
theorem stepChannels_spec (p : Setpoints) : ∀ (cs : List ChannelId) (kcs done' : List ChannelConfig)
    (ks done : List Channel) (s : State), s.cfg.valid → s.cfg.channels = done' ++ kcs → s.channels = done ++ ks →
    done.length = done'.length → Consecutive s.cfg.nch done.length cs →
    let new := List.zipWith (fun kc k => tickedChannel s.cfg (p.get kc.spSel) k) kcs ks
    ((∀ k ∈ new, k.chan.currentPosition ≠ .nan) →
      ∃ (h : (done ++ new).length = s.cfg.nch) (ls : List Anomaly), (∀ a ∈ ls, a = .rangeClamp) ∧
        stepChannels p cs s = .next { s with
          channels := done ++ new
          sized := h
          out := s.out ++ tickOutputs (done.length + 1) new
          labels := s.labels ++ ls }) ∧
    ((∃ k ∈ new, k.chan.currentPosition = .nan) → stepChannels p cs s = .fault .nanAtCast) := by
  intro cs
  induction cs with
  | nil =>
    intro kcs done' ks done s _ hc hs hd hcs new
    have hsz := s.sized
    rw [hs, List.length_append] at hsz
    change done.length = s.cfg.nch at hcs
    obtain rfl : ks = [] := List.length_eq_zero_iff.mp (by omega)
    have hnew : new = [] := List.zipWith_nil_right
    rw [hnew]
    refine ⟨fun _ => ⟨by simpa using hcs, [], by simp, ?_⟩, by simp⟩
    obtain ⟨⟨fsm, scratch, acc, channels⟩, cfg, sized, input, out, labels, free⟩ := s
    obtain rfl : channels = done ++ [] := hs
    simp [stepChannels, tickOutputs]
  | cons c cs ih =>
    intro kcs done' ks done s hv hc hs hd hcs
    obtain ⟨⟨hlt, rfl⟩, hcs⟩ := hcs
    have hsz := s.sized
    have hcz : s.cfg.channels.length = s.cfg.nch := rfl
    rw [hs, List.length_append] at hsz
    rw [hc, List.length_append] at hcz
    obtain _ | ⟨k, ks⟩ := ks
    · simp only [List.length_nil] at hsz; omega
    obtain _ | ⟨kc, kcs⟩ := kcs
    · simp only [List.length_nil] at hcz; omega
    set c : Fin s.cfg.nch := ⟨done.length, hlt⟩
    have hk : s.channel c = k := by simp [channel_eq, c, hs]
    have hkc : s.cfg.channel c = kc := by simp [Config.channel, c, hc, hd]
    set T := tickedChannel s.cfg (p.get kc.spSel) k with hT
    have hticked : s.ticked p c = T := by rw [State.ticked, hk, hkc]
    simp only [List.zipWith_cons_cons, List.mem_cons, forall_eq_or_imp, exists_eq_or_imp, stepChannels, ← hT]
    rw [execChStep_eq hv c p, hticked]
    by_cases hn : T.chan.currentPosition = .nan
    · rw [if_pos hn]
      simp [hn]
    rw [if_neg hn]
    simp only [andThen_next, hn, not_false_eq_true, true_and, false_or, ne_eq]
    set u : State := { s.setChannel c T with
      out := s.out ++ [.setPulse (channelNumber c) ((trunc T.chan.currentPosition).getD 0)]
      labels := s.labels ++ s.tickedLabels p c } with hu
    have hset : u.channels = (done ++ [T]) ++ ks := by
      change s.channels.set done.length T = _
      simp [hs]
    have := ih kcs (done' ++ [kc]) ks (done ++ [T]) u hv (by simp [hu, hc]) hset (by simp [hd])
      (by rw [List.length_append]; exact hcs)
    refine ⟨fun hall => ?_, this.2⟩
    obtain ⟨h, ls, hls, hstep⟩ := this.1 hall
    refine ⟨(congrArg List.length (List.append_assoc done [T] _)).symm.trans h, s.tickedLabels p c ++ ls, ?_, ?_⟩
    · intro a ha
      exact (List.mem_append.mp ha).elim mem_tickedLabels (hls a)
    · refine hstep.trans (congrArg Host.Outcome.next ?_)
      refine State.eq_of_fields rfl rfl rfl rfl ?_ rfl ?_ ?_ rfl
      · exact List.append_assoc ..
      · simp [hu, tickOutputs, channelNumber, c]
      · exact List.append_assoc ..

end Sys2Proof.Machine
end

