-- ==== Sys2Proof/Laws/Step.lean ====
section
/-!
SUPPORT. What a step and a run can do: a step is idle, or serves one event; a run over an event trace
is served event by event.
-/

namespace Sys2Proof.Machine

/-- The state in which the operation of the next event starts. -/
def served (s : State) (es : List Event) : State := { s with input := es, out := [], labels := [] }

section
variable (s : State) (es : List Event)
@[simp] theorem served_cfg : (served s es).cfg = s.cfg := rfl
@[simp] theorem served_fsm : (served s es).fsm = s.fsm := rfl
@[simp] theorem served_scratch : (served s es).scratch = s.scratch := rfl
@[simp] theorem served_acc : (served s es).acc = s.acc := rfl
@[simp] theorem served_channels : (served s es).channels = s.channels := rfl
@[simp] theorem served_input : (served s es).input = es := rfl
@[simp] theorem served_out : (served s es).out = [] := rfl
@[simp] theorem served_labels : (served s es).labels = [] := rfl
@[simp] theorem served_free : (served s es).free = s.free := rfl
end

theorem step_cons {s : State} (h : s.cfg.valid) {e : Event} {es : List Event} (hs : s.input = e :: es) :
    step s = exec (decodeEvent s.fsm s.scratch e) (served s es) := by
  simp [step, h, fetch, hs, served]

theorem step_rx {s : State} (h : s.cfg.valid) {b : Byte} {es : List Event} (hs : s.input = .rx b :: es) :
    step s = execRx b (served s es) := by
  rw [step_cons h hs, execRx_eq]; rfl

/-- What a step is, event by event. -/
theorem step_eq (s : State) : step s =
    if s.cfg.valid then
      match s.input with
      | [] => .next s
      | .rx b :: es => execRx b (served s es)
      | .tick :: es => execTick (served s es)
      | .snap :: es => execSnap (served s es)
      | .reset :: es => execReset (served s es)
    else .refused .badConfiguration := by
  by_cases h : s.cfg.valid
  · rw [if_pos h]
    split
    · simp [step, fetch, *]
    · exact step_rx h ‹_›
    · rw [step_cons h ‹_›]; rfl
    · rw [step_cons h ‹_›]; rfl
    · rw [step_cons h ‹_›]; rfl
  · simp [step, h]

/-- Writing a channel's records without its gains keeps the list of all gains. -/
theorem map_gains_setChannel {s : State} {c : Fin s.cfg.nch} {k : Channel}
    (hg : k.gains = (s.channel c).gains) : (s.setChannel c k).channels.map Channel.gains = s.channels.map Channel.gains := by
  rw [setChannel_channels, List.map_set, hg, channel_eq]
  apply List.ext_getElem (by simp)
  intro i h1 h2
  rw [List.getElem_set]
  split
  · subst_vars; simp
  · rfl

/-- `t` is `s` with other channel records, the same gains, and more outputs and labels. -/
def ChannelsChanged (s t : State) : Prop :=
  ∃ (ks : List Channel) (h : ks.length = s.cfg.nch) (os : List Output) (ls : List Anomaly),
    t = { s with channels := ks, sized := h, out := s.out ++ os, labels := s.labels ++ ls } ∧
    ks.map Channel.gains = s.channels.map Channel.gains ∧ .deadlineMiss ∉ ls

theorem ChannelsChanged.refl (s : State) : ChannelsChanged s s :=
  ⟨s.channels, s.sized, [], [], by simp, rfl, by simp⟩

theorem ChannelsChanged.trans {s t u : State} (h : ChannelsChanged s t) (h' : ChannelsChanged t u) :
    ChannelsChanged s u := by
  obtain ⟨ks, hz, os, ls, rfl, hk, hd⟩ := h
  obtain ⟨ks', hz', os', ls', rfl, hk', hd'⟩ := h'
  exact ⟨ks', hz', os ++ os', ls ++ ls', by simp, hk'.trans hk, by simp [hd, hd']⟩

theorem ChannelsChanged.setChannel {s : State} {c : Fin s.cfg.nch} {k : Channel}
    (hg : k.gains = (s.channel c).gains) : ChannelsChanged s (s.setChannel c k) :=
  ⟨_, (s.setChannel c k).sized, [], [], by simp [State.setChannel], map_gains_setChannel hg, by simp⟩

theorem ChannelsChanged.noteClamp (v : Num) (s : State) : ChannelsChanged s (s.noteClamp v) :=
  ⟨s.channels, s.sized, [], rangeLabels s.cfg v, by simp [State.noteClamp], rfl, fun h => by
    have := mem_rangeLabels h; cases this⟩

theorem ChannelsChanged.note {a : Anomaly} (ha : a ≠ .deadlineMiss) (s : State) : ChannelsChanged s (s.note a) :=
  ⟨s.channels, s.sized, [], [a], by simp [State.note], rfl, by simpa using ha.symm⟩

theorem ChannelsChanged.noteIf {a : Anomaly} (ha : a ≠ .deadlineMiss) (b : Bool) (s : State) :
    ChannelsChanged s (s.noteIf b a) := by
  cases b
  · rw [noteIf_false]; exact .refl s
  · exact .note ha s

theorem ChannelsChanged.emit (o : Output) (s : State) : ChannelsChanged s (s.emit o) :=
  ⟨s.channels, s.sized, [o], [], by simp [State.emit], rfl, by simp⟩

/-- `PID.COMPUTE` changes channel records only, and no gain. -/
theorem execPidCompute_frame {c : ChannelId} {t u : Num} {s s' : State} (h : execPidCompute c t u s = .next s') :
    ChannelsChanged s s' := by
  unfold execPidCompute at h
  split at h
  · cases h
  · cases h
    exact .setChannel rfl

/-- `SET_PULSE` always answers a next state; it changes channel records only, and no gain. -/
theorem execSetPulse_frame (ch w : ℤ) (s : State) : ∃ t, execSetPulse ch w s = .next t ∧ ChannelsChanged s t := by
  unfold execSetPulse
  split
  · exact ⟨_, rfl, (ChannelsChanged.noteIf (by decide) _ s).trans (.setChannel rfl)⟩
  · exact ⟨_, rfl, .note (by decide) s⟩

theorem integrateAndSend_frame {s t : State} {c : Fin s.cfg.nch} (h : integrateAndSend s c = .next t) :
    ChannelsChanged s t := by
  unfold integrateAndSend at h
  simp only at h
  split at h
  · cases h
  · obtain ⟨v, hv, hc⟩ := execSetPulse_frame (channelNumber c) ‹ℤ› _
    obtain rfl : v = t := Host.Outcome.next.inj (hv.symm.trans h)
    refine .trans ?_ ((ChannelsChanged.emit _ _).trans hc)
    exact (ChannelsChanged.noteClamp _ s).trans (.setChannel (s := s.noteClamp _) (c := c) rfl)

/-- `CH.STEP` changes channel records only, and no gain. -/
theorem execChStep_frame {c : ChannelId} {p : Setpoints} {s t : State} (h : execChStep c p s = .next t) :
    ChannelsChanged s t := by
  unfold execChStep at h
  split at h
  · cases h
  · rename_i i hi
    set raw := p.get (s.cfg.channel i).spSel
    have ha : ChannelsChanged s (s.aimAndCompute i raw) := by
      rw [aimAndCompute_eq]
      exact (ChannelsChanged.noteClamp raw s).trans (.setChannel (s := s.noteClamp raw) (c := i) rfl)
    exact ha.trans (integrateAndSend_frame (c := i) h)

theorem stepChannels_frame {p : Setpoints} {cs : List ChannelId} : ∀ {s t : State}, stepChannels p cs s = .next t →
    ChannelsChanged s t := by
  induction cs with
  | nil => rintro s t h; cases h; exact .refl s
  | cons c cs ih =>
    intro s t h
    rw [stepChannels, andThen_eq_next] at h
    obtain ⟨u, hu, ht⟩ := h
    exact (execChStep_frame hu).trans (ih ht)

/-- A tick leaves everything but the channel records and the model's own record as it was. -/
theorem execTick_frame {s t : State} (h : execTick s = .next t) : ChannelsChanged s t := stepChannels_frame h

/-- A step that serves an event consumes exactly that event and writes no configuration. -/
theorem step_input {s t : State} {e : Event} {es : List Event} (hs : s.input = e :: es) (h : step s = .next t) :
    t.input = es ∧ t.cfg = s.cfg ∧ s.cfg.valid := by
  rw [step_eq] at h
  split at h
  · rename_i hv
    rw [hs] at h
    cases e with
    | rx b =>
      obtain ⟨f, k, ls, hr⟩ := execRx_next b (served s es)
      simp only [hr, Host.Outcome.next.injEq] at h
      subst h; exact ⟨rfl, rfl, hv⟩
    | tick =>
      obtain ⟨ks, hz, os, ls, rfl, -⟩ := execTick_frame h
      exact ⟨rfl, rfl, hv⟩
    | snap => cases h; exact ⟨rfl, rfl, hv⟩
    | reset => cases h; exact ⟨rfl, rfl, hv⟩
  · cases h

/-- A run over an event trace serves the first event and then the rest. -/
theorem deliver_cons (e : Event) (es : List Event) (s : State) :
    deliver (e :: es) s = andThen (step { s with input := e :: es }) (deliver es) := by
  unfold deliver
  rw [List.length_cons, run]
  cases h : step { s with input := e :: es } with
  | next t =>
    have hi := (step_input rfl h).1
    simp only [andThen_next]
    congr 1
    cases t
    simp_all
  | fault r => rfl
  | refused r => rfl

@[simp] theorem deliver_nil (s : State) : deliver [] s = .next { s with input := [] } := rfl

/-- The operation an event selects, on the state with nothing recorded and no event to come. -/
def serve (e : Event) (s : State) : Host.Outcome State Fault Refusal :=
  if s.cfg.valid then exec (decodeEvent s.fsm s.scratch e) (served s []) else .refused .badConfiguration

/-- A step serves its event whatever comes after it, and leaves what comes after it. -/
theorem step_serve (s : State) (e : Event) (es : List Event) :
    step { s with input := e :: es } = mapNext (State.put es [] []) (serve e s) := by
  by_cases h : s.cfg.valid
  · have h' : ({ s with input := e :: es } : State).cfg.valid := h
    rw [step_cons h' rfl, serve, if_pos h, ← exec_put]
    rfl
  · simp [step_eq, serve, h, mapNext]

/-- Delivering events reads nothing of what is to come, or of what is recorded, beforehand. -/
theorem deliver_put (es : List Event) (s : State) (inp : List Event) :
    deliver es (s.put inp [] []) = deliver es s := rfl

theorem deliver_cons_serve (e : Event) (es : List Event) (s : State) :
    deliver (e :: es) s = andThen (serve e s) (deliver es) := by
  rw [deliver_cons, step_serve]
  cases serve e s <;> rfl

/-- Delivering a byte first: it is served on the state with nothing recorded. -/
theorem deliver_rx {s : State} (h : s.cfg.valid) (b : Byte) (es : List Event) :
    deliver (.rx b :: es) s = andThen (execRx b (served s [])) (deliver es) := by
  rw [deliver_cons_serve, serve, if_pos h, execRx_eq]; rfl

theorem deliver_append (es fs : List Event) (s : State) : deliver (es ++ fs) s = andThen (deliver es s) (deliver fs) := by
  induction es generalizing s with
  | nil => rfl
  | cons e es ih =>
    rw [List.cons_append, deliver_cons_serve, deliver_cons_serve, andThen_assoc]
    congr 1
    exact funext ih

/-- A run over an event trace is a run over its first part and then over the rest. -/
theorem run_add (m n : ℕ) (s : State) : run (m + n) s = andThen (run m s) (run n) := by
  induction m generalizing s with
  | zero => simp [run]
  | succ m ih =>
    rw [Nat.succ_add, run, run, andThen_assoc]
    congr 1
    exact funext fun t => ih t

end Sys2Proof.Machine
end

