-- ==== Sys2Proof/Tests/Slice0.lean ====
section
/-!
SUPPORT. Tests of the model against the spec's encodings and test vectors (`95_test_vectors.md`), the
smoke tests of the well-formedness checks, and a witness for the hypotheses of every obligation that
has some. Expected values are the spec's, not the model's.
-/

open Sys2Proof Sys2Proof.Machine

namespace Sys2Proof.Tests

/-- The state after reset with this decoder state, scratch buffer and events to come. -/
def start (f : Fsm) (k : Scratch) (es : List Event) : State :=
  { State.reset with fsm := f, scratch := k, input := es }

/-- The scratch buffer of Scenario A. -/
def scrA : Scratch := ⟨0x00#8, 0x0A#8, 0x00#8, 0x05#8, 0x0F#8⟩

/-- Channel 1 and channel 2 of a bank of two (R6). -/
def ch1 : ChannelId := ⟨2, 0⟩
/-- Channel 2 of it. -/
def ch2 : ChannelId := ⟨2, 1⟩

/-- A function of the next state, where there is one. -/
def onNext {α : Type} (o : Host.Outcome State Fault Refusal) (g : State → α) : Option α :=
  match o with
  | .next s => some (g s)
  | _ => none

/-- The fault, where there is one. -/
def faultOf (o : Host.Outcome State Fault Refusal) : Option Fault :=
  match o with
  | .fault r => some r
  | _ => none

theorem next_of_onNext {o : Host.Outcome State Fault Refusal} (h : (onNext o fun _ => ()).isSome) : ∃ t, o = .next t := by
  cases o <;> simp_all [onNext]

/-- The rational of a finite number: what no free sign of a zero changes. -/
def ratOf : Num → Option Rat
  | .fin q _ => some q
  | _ => none

/-! ## Decoding: words written out from the spec -/

/-- R46: `10101010`. -/
theorem test_decode_sync : decodeTableWord 8 0b10101010 = some .rxWs1Sync := by decide
/-- V17: `55` in `WaitSync1`. -/
theorem test_decode_skip : decodeByte .waitSync1 scrA 0b01010101#8 = .rxWs1Skip 0x55#8 := by decide
/-- V17, V7: `AA` and `55` are data in `B0` to `B4`. -/
theorem test_decode_payload :
    decodeByte .b0 scrA 0b10101010#8 = .rxB0 0xAA#8 ∧ decodeByte .b1 scrA 0b11111111#8 = .rxB1 0xFF#8
      ∧ decodeByte .b2 scrA 0b01010101#8 = .rxB2 0x55#8 ∧ decodeByte .b3 scrA 0b10101010#8 = .rxB3 0xAA#8
      ∧ decodeByte .b4 scrA 0b01010101#8 = .rxB4 0x55#8 := by decide
/-- V17: the four `WaitSync2` rows. -/
theorem test_decode_term :
    decodeByte .waitSync2 scrA 0b01010101#8 = .rxWs2Commit
      ∧ decodeByte .waitSync2 { scrA with s4 := 0x00#8 } 0b01010101#8 = .rxWs2Badsum
      ∧ decodeByte .waitSync2 scrA 0b10101010#8 = .rxWs2Abort 0xAA#8
      ∧ decodeByte .waitSync2 { scrA with s4 := 0x00#8 } 0b01010100#8 = .rxWs2Abort 0x54#8 := by decide
/-- R46: the pattern `10101010 sxxxxxxx xxxxxxxx tyyyyyyy yyyyyyyy cccccccc 01010101` with V2's fields. -/
theorem test_decode_frame :
    decodeTableWord 56 0b10101010100000000000101010000000000001010000111101010101
      = some (.frame7 0x80#8 0x0A#8 0x80#8 0x05#8 0x0F#8) := by decide
/-- What is not a frame is rejected by name. -/
theorem test_reject :
    decodeFrame [0xAA#8, 0x00#8] = .rejected .tooShort
      ∧ decodeFrame [0xAB#8, 0x00#8, 0x0A#8, 0x00#8, 0x05#8, 0x0F#8, 0x55#8] = .rejected .badSync
      ∧ decodeFrame [0xAA#8, 0x00#8, 0x0A#8, 0x00#8, 0x05#8, 0x0F#8, 0x54#8] = .rejected .badTerm
      ∧ decodeFrame [0xAA#8, 0x00#8, 0x0A#8, 0x00#8, 0x05#8, 0x00#8, 0x55#8] = .rejected .badSum := by decide
/-- V10, V12: canonical frames as the spec writes them out. -/
theorem test_frameBytes :
    frameBytes (-256) (-255) = [0xAA#8, 0x81#8, 0x00#8, 0x80#8, 0xFF#8, 0x00#8, 0x55#8]
      ∧ frameBytes (-32767) (-32767) = [0xAA#8, 0xFF#8, 0xFF#8, 0xFF#8, 0xFF#8, 0xFC#8, 0x55#8] := by decide
/-- V24, V25. -/
theorem test_sm16_csum :
    sm16 0x8001 = -1 ∧ sm16 0xAA00 = -10752 ∧ sm16 0x8000 = 0 ∧ enc16 (-256) = 0x8100
      ∧ csum 0x81#8 0x00#8 0x80#8 0xFF#8 = 0x00#8 ∧ csum 0x2A#8 0xAA#8 0x00#8 0x55#8 = 0x29#8 := by decide

/-! ## Well-formedness: each check refuses a term that breaks it -/

theorem smoke_config_default : Config.default.valid := by decide
theorem smoke_no_channel : ({ Config.default with channels := [] } : Config).valid = false := by decide
theorem smoke_range_empty : ({ Config.default with pwMin := 4001 } : Config).valid = false := by decide
theorem smoke_width_too_large : ({ Config.default with pwMax := 65536 } : Config).valid = false := by decide
theorem smoke_pos_not_value : ({ Config.default with posReset := .of (mkRat 9001 3) } : Config).valid = false := by decide
theorem smoke_pos_not_finite : ({ Config.default with posReset := .inf false } : Config).valid = false := by decide
theorem smoke_pos_below : ({ Config.default with posReset := .of 1999 } : Config).valid = false := by decide
theorem smoke_pos_above : ({ Config.default with posReset := .of 4001 } : Config).valid = false := by decide
theorem smoke_sp_not_value : ({ Config.default with spReset := .of (mkRat 1 3) } : Config).valid = false := by decide
theorem smoke_gain_p :
    ({ Config.default with channels := [⟨.x, .inf true, .of 0, .of 0⟩] } : Config).valid = false
      ∧ ({ Config.default with channels := [⟨.x, .of (mkRat 1 3), .of 0, .of 0⟩] } : Config).valid = false := by decide
theorem smoke_gain_i :
    ({ Config.default with channels := [⟨.x, .of 0, .nan, .of 0⟩] } : Config).valid = false
      ∧ ({ Config.default with channels := [⟨.x, .of 0, .of (mkRat 1 3), .of 0⟩] } : Config).valid = false := by decide
theorem smoke_gain_d :
    ({ Config.default with channels := [⟨.x, .of 0, .of 0, .inf false⟩] } : Config).valid = false
      ∧ ({ Config.default with channels := [⟨.x, .of 0, .of 0, .of (mkRat 1 3)⟩] } : Config).valid = false := by decide
theorem smoke_limit :
    ({ Config.default with integralLimit := some (.of (-1)) } : Config).valid = false
      ∧ ({ Config.default with integralLimit := some (.inf false) } : Config).valid = false
      ∧ ({ Config.default with integralLimit := some (.of (mkRat 1 3)) } : Config).valid = false := by decide
theorem smoke_minus_zero_only : isValue .binary32 (.fin 1 true) = false ∧ isValue .exact (.fin 0 true) = false := by decide
theorem smoke_skip_of_sync : (Instr.rxWs1Skip 0xAA#8).wf Config.default = false := by decide
theorem smoke_abort_of_term : (Instr.rxWs2Abort 0x55#8).wf Config.default = false := by decide
theorem smoke_pid_channel :
    (Instr.pidCompute ⟨1, 0⟩ (.of 0) (.of 0)).wf Config.default = false
      ∧ (Instr.pidCompute ⟨3, 2⟩ (.of 0) (.of 0)).wf Config.default = false
      ∧ (Instr.pidCompute ch1 (.of (mkRat 1 3)) (.of 0)).wf Config.default = false
      ∧ (Instr.pidCompute ch1 (.of 0) (.of (mkRat 1 3))).wf Config.default = false
      ∧ (Instr.pidCompute ch1 (.of 0) (.of 0)).wf Config.default := by decide
theorem smoke_step_channel :
    (Instr.chStep ⟨1, 0⟩ ⟨.of 0, .of 0⟩).wf Config.default = false
      ∧ (Instr.chStep ⟨3, 2⟩ ⟨.of 0, .of 0⟩).wf Config.default = false
      ∧ (Instr.chStep ch1 ⟨.of (mkRat 1 3), .of 0⟩).wf Config.default = false
      ∧ (Instr.chStep ch1 ⟨.of 0, .of (mkRat 1 3)⟩).wf Config.default = false
      ∧ (Instr.chStep ch2 ⟨.of 0, .of 0⟩).wf Config.default := by decide
theorem smoke_frame_sum : (Instr.frame7 0x00#8 0x0A#8 0x00#8 0x05#8 0x00#8).wf Config.default = false := by decide

/-! ## The operations, one step each -/

/-- A table word placed by `withFetchWord` is what the next step serves. -/
theorem test_fetch :
    onNext (step (State.reset.withFetchWord 8 0xAA)) (fun t => (t.fsm, t.input)) = some (.b0, [])
      ∧ onNext (step (State.reset.withFetchWord 56 0xAA000A00050F55)) (fun t => (t.fsm, t.input.length))
        = some (.b0, 6) := by decide

/-- V17: `WS1`, `AA`. -/
theorem test_sync : onNext (step (start .waitSync1 scrA [.rx 0xAA#8])) (fun t => (t.fsm, t.scratch, t.labels))
    = some (.b0, scrA, []) := by decide
/-- V17, V15: `WS1`, `55`. -/
theorem test_skip : onNext (step (start .waitSync1 scrA [.rx 0x55#8])) (fun t => (t.fsm, t.scratch, t.labels))
    = some (.waitSync1, scrA, [.malformedSync]) := by decide
/-- V17: `B0`, `AA`. -/
theorem test_b0 : onNext (step (start .b0 scrA [.rx 0xAA#8])) (fun t => (t.fsm, t.scratch))
    = some (.b1, { scrA with s0 := 0xAA#8 }) := by decide
/-- V17: `B1`, `FF`. -/
theorem test_b1 : onNext (step (start .b1 scrA [.rx 0xFF#8])) (fun t => (t.fsm, t.scratch))
    = some (.b2, { scrA with s1 := 0xFF#8 }) := by decide
/-- V17: `B2`, `55`. -/
theorem test_b2 : onNext (step (start .b2 scrA [.rx 0x55#8])) (fun t => (t.fsm, t.scratch))
    = some (.b3, { scrA with s2 := 0x55#8 }) := by decide
/-- V17: `B3`, `AA`. -/
theorem test_b3 : onNext (step (start .b3 scrA [.rx 0xAA#8])) (fun t => (t.fsm, t.scratch))
    = some (.b4, { scrA with s3 := 0xAA#8 }) := by decide
/-- V17: `B4`, `55` is the checksum. -/
theorem test_b4 : onNext (step (start .b4 scrA [.rx 0x55#8])) (fun t => (t.fsm, t.scratch))
    = some (.waitSync2, { scrA with s4 := 0x55#8 }) := by decide
/-- V1, V17: Scenario A commits (+10, +5). -/
theorem test_commit : onNext (step (start .waitSync2 scrA [.rx 0x55#8])) (fun t => (t.fsm, t.acc, t.labels))
    = some (.waitSync1, ⟨.of 3010, .of 3005⟩, []) := by decide
/-- V4: `0xFFFF` is -32767, not -1. -/
theorem test_commit_extreme :
    onNext (step (start .waitSync2 ⟨0x7F#8, 0xFF#8, 0xFF#8, 0xFF#8, 0x7C#8⟩ [.rx 0x55#8])) (fun t => t.acc)
      = some ⟨.of 35767, .of (-29767)⟩ := by decide
/-- V3: Scenario B. -/
theorem test_badsum :
    onNext (step (start .waitSync2 { scrA with s4 := 0x00#8 } [.rx 0x55#8])) (fun t => (t.fsm, t.acc, t.labels))
      = some (.waitSync1, ⟨.of 3000, .of 3000⟩, [.malformedSum]) := by decide
/-- V14: the terminator is tested first. -/
theorem test_abort :
    onNext (step (start .waitSync2 { scrA with s4 := 0x00#8 } [.rx 0x54#8])) (fun t => (t.fsm, t.acc, t.labels))
      = some (.waitSync1, ⟨.of 3000, .of 3000⟩, [.malformedTerm]) := by decide
/-- V30: Scenario C. -/
theorem test_pid_compute :
    onNext (exec (.pidCompute ch1 (.of 3100) (.of 3000)) State.reset) (fun t => t.channels.map (·.pid.lastOutput))
      = some [.of (mkRat 35 2), .of 0] := by decide
/-- V31, call 2: the old `previous_error` and the new integral. -/
theorem test_pid_compute_second :
    onNext (exec (.pidCompute ch1 (.of 3100) (.of (mkRat 6035 2)))
        (State.reset.setChannel ch1.index ⟨⟨.of (mkRat 5 2), .of 0, .of 15, .of 100, .of 100, .of 100, .of (mkRat 35 2)⟩,
          ⟨.of (mkRat 6035 2), .of 3100, .of (mkRat 35 2)⟩, none⟩))
      (fun t => (t.channels.map (·.pid.lastOutput), t.channels.map (·.pid.integralAccumulator)))
      = some ([.of (mkRat (-9) 16), .of 0], [.of (mkRat 365 2), .of 0]) := by decide
/-- V43. -/
theorem test_ch_step :
    onNext (exec (.chStep ch1 ⟨.of 3100, .of 3000⟩) State.reset) (fun t => (t.channels.map (·.chan), t.out))
      = some ([⟨.of (mkRat 6035 2), .of 3100, .of (mkRat 35 2)⟩, ⟨.of 3000, .of 3000, .of 0⟩], [.setPulse 1 3017]) := by
  decide
/-- V40, Scenario D: the target saturates and the accumulator keeps 5000. -/
theorem test_ch_step_clamps :
    onNext (exec (.chStep ch1 ⟨.of 5000, .of 3000⟩) State.reset)
      (fun t => (t.channels.map (·.chan.targetPosition), t.labels, t.acc))
      = some ([.of 4000, .of 3000], [.rangeClamp], ⟨.of 3000, .of 3000⟩) := by decide
/-- V45: the first tick after reset. -/
theorem test_tick :
    onNext (step (start .b2 scrA [.tick])) (fun t => (t.out, t.channels.map (·.pulse), t.fsm, t.scratch))
      = some ([.setPulse 1 3000, .setPulse 2 3000], [some 3000#16, some 3000#16], .b2, scrA) := by decide
/-- U5, R96: a NaN target reaches the cast. -/
theorem test_tick_nan :
    faultOf (step { start .waitSync1 scrA [.tick] with acc := ⟨.nan, .of 3000⟩ }) = some .nanAtCast := by decide
/-- V50: `SET_PULSE(2, 70000)`, the in-layer clamp; and `SET_PULSE(1, 2500)` is channel 1's (R6). -/
theorem test_set_pulse :
    onNext (exec (.setPulse 2 70000) State.reset) (fun t => (t.channels.map (·.pulse), t.labels))
      = some ([none, some 4000#16], [.rangeClamp])
      ∧ onNext (exec (.setPulse 1 2500) State.reset) (fun t => t.channels.map (·.pulse)) = some [some 2500#16, none] := by
  decide
/-- V50: `SET_PULSE(-1, 3000)`. -/
theorem test_set_pulse_bad_channel :
    onNext (exec (.setPulse (-1) 3000) State.reset) id = some { State.reset with labels := [.badChannel] } := by decide
/-- V51: `RESET; SNAP`. -/
theorem test_snap :
    onNext (step (start .waitSync1 scrA [.snap])) (fun t => t.out)
      = some [.snapshot ⟨.of 3000, .of 3000⟩ [⟨.of 3000, .of 3000, .of 0⟩, ⟨.of 3000, .of 3000, .of 0⟩]] := by decide
/-- V52: `RESET` in mid-frame. -/
theorem test_reset :
    onNext (step { start .b2 scrA [.reset] with acc := ⟨.of 5000, .of 0⟩ }) (fun t => (t.fsm, t.acc, t.channels))
      = some (.waitSync1, ⟨.of 3000, .of 3000⟩, State.reset.channels) := by decide
/-- V2: a whole frame, both signs flipped. -/
theorem test_frame7 :
    onNext (exec (.frame7 0x80#8 0x0A#8 0x80#8 0x05#8 0x0F#8) State.reset) (fun t => (t.fsm, t.acc))
      = some (.waitSync1, ⟨.of 2990, .of 2995⟩) := by decide
/-- V16: the same operation from `B0`: the sync byte is payload, and the frame does not commit. -/
theorem test_frame7_misaligned :
    onNext (exec (.frame7 0x00#8 0x0A#8 0x00#8 0x05#8 0x0F#8) (start .b0 scrA [])) (fun t => (t.fsm, t.acc, t.labels))
      = some (.waitSync1, ⟨.of 3000, .of 3000⟩, [.malformedTerm, .malformedSync]) := by decide
/-- V41, V42. -/
theorem test_clamp_trunc :
    clamp Config.default (.of (mkRat 3999 2)) = .of 2000 ∧ clamp Config.default (.of (mkRat 4001 2)) = .of (mkRat 4001 2)
      ∧ clamp Config.default (.inf false) = .of 4000 ∧ clamp Config.default .nan = .nan
      ∧ trunc (.of (mkRat 48271 16)) = some 3016 ∧ trunc .nan = none := by decide
/-- V46, tick 1: binary32 rounds 330/100 to 3.299999952316284. -/
theorem test_rounding : fdiv .binary32 (.of 330) (.of 100) = .of (mkRat 13841203 4194304) := by decide
/-- V36, call 2: the limited integral. -/
theorem test_limit : limit { Config.default with integralLimit := some (.of 150) } (.of 200) = .of 150 := by decide

/-! ## Witnesses: the hypotheses of each obligation can be met -/

theorem wit_SyncByteOpensFrame :
    (∃ (s : State) (es : List Event), s.cfg.valid ∧ s.input = .rx 0xAA#8 :: es ∧ s.fsm = .waitSync1)
      ∧ ∃ (s : State) (es : List Event), s.cfg.valid ∧ s.input = .rx 0xAA#8 :: es ∧ s.fsm = .b0 :=
  ⟨⟨start .waitSync1 scrA [.rx 0xAA#8], [], by decide⟩, ⟨start .b0 scrA [.rx 0xAA#8], [], by decide⟩⟩

theorem wit_OtherByteIsSkipped :
    ∃ (s : State) (b : Byte) (es : List Event), b ≠ 0xAA#8 ∧ s.cfg.valid ∧ s.input = .rx b :: es ∧ s.fsm = .waitSync1 :=
  ⟨start .waitSync1 scrA [.rx 0xAB#8], 0xAB#8, [], by decide⟩

theorem wit_PayloadBytesAreStored (f : Fsm) :
    ∃ (s : State) (b : Byte) (es : List Event), s.cfg.valid ∧ s.input = .rx b :: es ∧ s.fsm = f :=
  ⟨start f scrA [.rx 0xAA#8], 0xAA#8, [], smoke_config_default, rfl, rfl⟩

theorem wit_CommitAddsBothDeltas :
    ∃ (s : State) (es : List Event), s.cfg.valid ∧ s.input = .rx 0x55#8 :: es ∧ s.fsm = .waitSync2
      ∧ s.scratch.s4.toNat
        = (s.scratch.s0.toNat + s.scratch.s1.toNat + s.scratch.s2.toNat + s.scratch.s3.toNat) % 256 :=
  ⟨start .waitSync2 ⟨0xFF#8, 0xFF#8, 0xFF#8, 0xFF#8, 0xFC#8⟩ [.rx 0x55#8], [], by decide⟩

theorem wit_BadChecksumDropsFrame :
    ∃ (s : State) (es : List Event), s.cfg.valid ∧ s.input = .rx 0x55#8 :: es ∧ s.fsm = .waitSync2
      ∧ s.scratch.s4.toNat
        ≠ (s.scratch.s0.toNat + s.scratch.s1.toNat + s.scratch.s2.toNat + s.scratch.s3.toNat) % 256 :=
  ⟨start .waitSync2 { scrA with s4 := 0x00#8 } [.rx 0x55#8], [], by decide⟩

theorem wit_BadTerminatorDropsFrame :
    ∃ (s : State) (b : Byte) (es : List Event), b ≠ 0x55#8 ∧ s.cfg.valid ∧ s.input = .rx b :: es ∧ s.fsm = .waitSync2 :=
  ⟨start .waitSync2 scrA [.rx 0x54#8], 0x54#8, [], by decide⟩

theorem wit_StepServesTheNextEvent :
    ∃ (s : State) (e : Event) (es : List Event) (i : Instr), s.cfg.valid ∧ s.input = e :: es
      ∧ decodeEvent s.fsm s.scratch e = i :=
  ⟨start .waitSync2 scrA [.rx 0x55#8, .tick], .rx 0x55#8, [.tick], .rxWs2Commit, by decide⟩

theorem wit_StepPassesParameters :
    (∃ (s : State) (e : Event) (es : List Event) (r : Reaction), s.cfg.valid ∧ s.input = e :: es
        ∧ Block.serve s.cfg e s.free s.toBlock s.sized = .next r ∧ es = [.tick])
      ∧ ∃ (s : State) (e : Event) (es : List Event) (f : Fault), s.cfg.valid ∧ s.input = e :: es
        ∧ Block.serve s.cfg e s.free s.toBlock s.sized = .fault f :=
  ⟨⟨start .waitSync2 scrA [.rx 0x55#8, .tick], _, _, _, by decide, rfl, rfl, rfl⟩,
    ⟨{ start .waitSync1 scrA [.tick] with acc := ⟨.nan, .of 3000⟩ }, _, _, .nanAtCast, by decide, rfl, by rfl⟩⟩

theorem wit_NoEventNoChange : ∃ s : State, s.cfg.valid ∧ s.input = [] := ⟨start .b3 scrA [], by decide⟩

/-- The state after reset with a configuration that breaks one constraint of R141. -/
def badly (f : Config → Config) : State := State.resetWith (f Config.default)

/-- A witness for each clause: no channel; range empty by 1; width one too large; `POS_RESET` one below
`PW_MIN` and one above `PW_MAX`, and infinite; a NaN gain; limit -1, and infinite; and a third where a
value of binary32 is due. -/
theorem wit_BadConfigurationIsRefused :
    (∃ s : State, s.cfg.channels = []) ∧ (∃ s : State, s.cfg.pwMax < s.cfg.pwMin) ∧ (∃ s : State, 65535 < s.cfg.pwMax)
      ∧ (∃ s : State, ¬ InRange s.cfg s.cfg.posReset ∧ s.cfg.posReset = .of 1999 ∧ s.cfg.pwMin = 2000)
      ∧ (∃ s : State, ¬ InRange s.cfg s.cfg.posReset ∧ s.cfg.posReset = .of 4001 ∧ s.cfg.pwMax = 4000)
      ∧ (∃ s : State, ¬ InRange s.cfg s.cfg.posReset ∧ ¬ isFinite s.cfg.posReset)
      ∧ (∃ s : State, ∃ k ∈ s.cfg.channels, ¬ isFinite k.gainP ∨ ¬ isFinite k.gainI ∨ ¬ isFinite k.gainD)
      ∧ (∃ s : State, ∃ l, s.cfg.integralLimit = some l ∧ ¬ isFinite l)
      ∧ (∃ s : State, ∃ l q m, s.cfg.integralLimit = some l ∧ l = .fin q m ∧ q < 0 ∧ q = -1)
      ∧ (∃ s : State, ¬ isValue s.cfg.format s.cfg.posReset) ∧ (∃ s : State, ¬ isValue s.cfg.format s.cfg.spReset)
      ∧ (∃ s : State, ∃ k ∈ s.cfg.channels, ¬ isValue s.cfg.format k.gainP)
      ∧ ∃ s : State, ∃ l, s.cfg.integralLimit = some l ∧ ¬ isValue s.cfg.format l := by
  refine ⟨⟨badly ({ · with channels := [] }), rfl⟩, ⟨badly ({ · with pwMax := 1999 }), by decide⟩,
    ⟨badly ({ · with pwMax := 65536 }), by decide⟩,
    ⟨badly ({ · with posReset := .of 1999 }), ?_, rfl, rfl⟩, ⟨badly ({ · with posReset := .of 4001 }), ?_, rfl, rfl⟩,
    ⟨badly ({ · with posReset := .inf false }), ?_, by decide⟩,
    ⟨badly ({ · with channels := [⟨.x, .of 0, .of 0, .nan⟩] }), ⟨.x, .of 0, .of 0, .nan⟩, by decide⟩,
    ⟨badly ({ · with integralLimit := some (.inf false) }), _, rfl, by decide⟩,
    ⟨badly ({ · with integralLimit := some (.of (-1)) }), _, -1, false, rfl, rfl, by norm_num, rfl⟩,
    ⟨badly ({ · with posReset := .of (mkRat 9001 3) }), by decide⟩, ⟨badly ({ · with spReset := .of (mkRat 1 3) }), by decide⟩,
    ⟨badly ({ · with channels := [⟨.x, .of (mkRat 1 3), .of 0, .of 0⟩] }), ⟨.x, .of (mkRat 1 3), .of 0, .of 0⟩, by decide⟩,
    ⟨badly ({ · with integralLimit := some (.of (mkRat 1 3)) }), _, rfl, by decide⟩⟩
  all_goals
    rintro ⟨q, m, hq, h1, h2⟩
    cases hq
  · norm_num [badly, State.resetWith, Config.default] at h1
  · norm_num [badly, State.resetWith, Config.default] at h2

theorem wit_DecodeOfEncodeIsIdentity :
    (∃ (cfg : Config) (i : Instr) (f : Fsm) (k : Scratch), i.wf cfg ∧ i.inState = some f ∧ i.sumCondition k)
      ∧ ∃ (cfg : Config) (p0 p1 p2 p3 cs : Byte), (Instr.frame7 p0 p1 p2 p3 cs).wf cfg :=
  ⟨⟨Config.default, .rxWs2Commit, .waitSync2, scrA, by decide⟩,
    ⟨Config.default, 0xFF#8, 0xFF#8, 0xFF#8, 0xFF#8, 0xFC#8, by decide⟩⟩

theorem wit_SignMagnitudeRoundTrip :
    (∃ v : ℤ, -32767 ≤ v ∧ v ≤ 32767 ∧ v = -32767) ∧ (∃ v : ℤ, -32767 ≤ v ∧ v ≤ 32767 ∧ v = 32767)
      ∧ ∃ raw : ℕ, raw < 65536 ∧ raw = 0x8000 :=
  ⟨⟨-32767, by decide⟩, ⟨32767, by decide⟩, ⟨0x8000, by decide⟩⟩

theorem wit_CanonicalFrameCommitsItsDeltas :
    ∃ (s : State) (dx dy : ℤ), s.cfg.valid ∧ s.fsm = .waitSync1 ∧ -32767 ≤ dx ∧ dx ≤ 32767 ∧ -32767 ≤ dy ∧ dy ≤ 32767 :=
  ⟨start .waitSync1 scrA [], 32767, -32767, by decide⟩

/-- V1's frame with a tick and a snapshot inside it. -/
theorem wit_WholeFrameEffectUnderInterleaving :
    ∃ (s t : State) (es : List Event) (p0 p1 p2 p3 : Byte), s.fsm = .waitSync1 ∧ .reset ∉ es
      ∧ rxBytes es = frame7Bytes p0 p1 p2 p3 (csum p0 p1 p2 p3) ∧ deliver es s = .next t := by
  have h : ∃ t, deliver [.rx 0xAA#8, .rx 0x00#8, .rx 0x0A#8, .snap, .rx 0x00#8, .rx 0x05#8, .rx 0x0F#8, .tick, .rx 0x55#8]
      State.reset = .next t := next_of_onNext (by decide)
  obtain ⟨t, ht⟩ := h
  exact ⟨State.reset, t, _, 0x00#8, 0x0A#8, 0x00#8, 0x05#8, rfl, by decide, by decide, ht⟩

theorem wit_WholeFrameCommitsOnce :
    ∃ (s : State) (p0 p1 p2 p3 cs : Byte), s.fsm = .waitSync1 ∧ cs = csum p0 p1 p2 p3 :=
  ⟨start .waitSync1 scrA [], 0x81#8, 0x00#8, 0x80#8, 0xFF#8, 0x00#8, by decide⟩

theorem wit_BoundedReturnToSync :
    (∃ (s : State) (bs : List Byte), s.cfg.valid ∧ bs.length = bytesToSync s.fsm ∧ s.fsm = .b0)
      ∧ (∃ (s : State) (bs : List Byte), s.cfg.valid ∧ bs.length = bytesToSync s.fsm ∧ s.fsm = .waitSync1)
      ∧ (∃ (s : State) (bs : List Byte), s.cfg.valid ∧ s.fsm = .waitSync1 ∧ bs.length ≤ 6 ∧ bs.length = 6) :=
  ⟨⟨start .b0 scrA [], List.replicate 6 0xAA#8, by decide⟩, ⟨start .waitSync1 scrA [], [], by decide⟩,
    ⟨start .waitSync1 scrA [], List.replicate 6 0xAA#8, by decide⟩⟩

/-- V21: the sync byte, and the terminator, changed; V22; V20d. -/
theorem wit_ResyncAfterOneCorruptedByte :
    (∃ (s : State) (b : Byte), s.cfg.valid ∧ s.fsm = .waitSync1 ∧ (frameBytes 7 7)[0]? ≠ some b
        ∧ ∀ j, 1 ≤ j → j ≤ 5 → (frameBytes 7 7)[j]? ≠ some 0xAA#8)
      ∧ (∃ (s : State) (b : Byte), s.cfg.valid ∧ s.fsm = .waitSync1 ∧ (frameBytes 7 7)[6]? ≠ some b)
      ∧ ∃ s : State, s.cfg.valid ∧ s.fsm = .b2 := by
  refine ⟨⟨start .waitSync1 scrA [], 0xAB#8, by decide, rfl, by decide, fun j h1 h5 => ?_⟩,
    ⟨start .waitSync1 scrA [], 0x54#8, by decide⟩, ⟨start .b2 scrA [], by decide⟩⟩
  interval_cases j <;> decide

theorem wit_ReceiverTouchesOnlyItsOwn :
    ∃ (s t : State) (b : Byte) (es : List Event), s.input = .rx b :: es ∧ step s = .next t
      ∧ decodeByte s.fsm s.scratch b ≠ .rxWs2Commit := by
  obtain ⟨t, ht⟩ := next_of_onNext (o := step (start .waitSync2 scrA [.rx 0xAA#8])) (by decide)
  exact ⟨_, t, 0xAA#8, [], rfl, ht, by decide⟩

theorem wit_PidComputeResult :
    (∃ (s : State) (c : Fin s.cfg.nch) (k : Channel), s.channels[c.val]? = some k ∧ s.cfg.integralLimit = none)
      ∧ ∃ (s : State) (c : Fin s.cfg.nch) (k : Channel) (l : Num),
        s.channels[c.val]? = some k ∧ s.cfg.integralLimit = some l :=
  ⟨⟨State.reset, ch1.index, Channel.atReset Config.default (Config.scenarioGains .x), by decide⟩,
    ⟨State.resetWith { Config.default with integralLimit := some (.of 150) }, ch2.index,
      Channel.atReset Config.default (Config.scenarioGains .y), .of 150, by decide⟩⟩

/-- The last channel of the bank, and the last of a bank one larger. -/
theorem wit_ChannelIndexIsBounded :
    (∃ (s : State) (c : ChannelId), c.nch = s.cfg.nch ∧ channelNumber c.index = s.cfg.nch)
      ∧ ∃ (s : State) (c : ChannelId), c.nch ≠ s.cfg.nch ∧ channelNumber c.index = s.cfg.nch + 1 :=
  ⟨⟨State.reset, ch2, by decide⟩, ⟨State.reset, ⟨3, 2⟩, by decide⟩⟩

theorem wit_PidChannelsAreIndependent : ∃ c d : ChannelId, c ≠ d ∧ c.nch = 2 ∧ d.nch = 2 := ⟨ch1, ch2, by decide⟩

theorem wit_IntegralLimitPolicy :
    (∃ cfg : Config, cfg.valid ∧ cfg.integralLimit = none)
      ∧ ∃ (cfg : Config) (l : ℚ) (m : Bool), cfg.valid ∧ cfg.integralLimit = some (.fin l m) ∧ Bounded l (.of (-l)) :=
  ⟨⟨Config.default, by decide⟩,
    ⟨{ Config.default with integralLimit := some (.of 150) }, 150, false, by decide, rfl, _, _, rfl, by norm_num⟩⟩

/-- P2, channel 1 in exact arithmetic: `Kp = 50`, target 4000, position 3000. -/
theorem wit_ProportionalLoopScalesError :
    ∃ (cfg : Config) (k : Channel) (kp t pos i prev : ℚ), cfg.valid ∧ cfg.format = .exact ∧ cfg.integralLimit = none
      ∧ k.pid.gainP = .of kp ∧ k.pid.gainI = .of 0 ∧ k.pid.gainD = .of 0
      ∧ k.pid.integralAccumulator = .of i ∧ k.pid.previousError = .of prev
      ∧ k.chan.currentPosition = .of pos ∧ InRange cfg (.of t) ∧ InRange cfg (.of (pos + kp * (t - pos) / 100)) :=
  ⟨{ Config.default with format := .exact }, Channel.atReset Config.default ⟨.x, .of 50, .of 0, .of 0⟩,
    50, 4000, 3000, 0, 0, by decide, rfl, rfl, rfl, rfl, rfl, rfl, rfl, rfl,
    ⟨_, _, rfl, by norm_num [Config.default], by norm_num [Config.default]⟩,
    ⟨_, _, rfl, by norm_num [Config.default], by norm_num [Config.default]⟩⟩

theorem wit_NumIsAdmissible :
    (∃ (f : NumFormat) (x y : ℚ), isFiniteValue f (x + y) ∧ isFiniteValue f (x - y) ∧ isFiniteValue f (x * y)
        ∧ y ≠ 0 ∧ isFiniteValue f (x / y))
      ∧ ∃ (n : ℤ) (k : ℕ), |n| ≤ 2 ^ 24 ∧ k ≤ 24 ∧ n = -2 ^ 24 ∧ k = 24 := by
  refine ⟨⟨.binary32, 3, 2, ?_⟩, ⟨-2 ^ 24, 24, by decide⟩⟩
  have d : ∀ n : ℤ, |n| ≤ 2 ^ 24 → ∀ k : ℕ, k ≤ 24 → isFiniteValue .binary32 ((n : ℚ) / 2 ^ k) :=
    fun n hn k hk => isFiniteValue_dyadic .binary32 hn hk
  have h5 := d 5 (by norm_num) 0 (by norm_num)
  have h1 := d 1 (by norm_num) 0 (by norm_num)
  have h6 := d 6 (by norm_num) 0 (by norm_num)
  have h3 := d 3 (by norm_num) 1 (by norm_num)
  norm_num at h5 h1 h6 h3 ⊢
  exact ⟨h5, h1, h6, h3⟩

/-- A tie at `2^24 + 1`, and an overflow at `2^128`. -/
theorem wit_RoundingIsToNearestEven :
    (∃ q r v : ℚ, roundQ .binary32 q = some r ∧ isFiniteValue .binary32 v ∧ v ≠ r ∧ |r - q| = |v - q|)
      ∧ ∃ q : ℚ, roundQ .binary32 q = none :=
  ⟨⟨16777217, 16777216, 16777218, by decide, by decide, by norm_num, by norm_num⟩, ⟨(2 ^ 128 : ℕ), by decide⟩⟩

theorem wit_ResultsAreValues :
    ∃ (f : NumFormat) (a b : Num), isValue f a ∧ isValue f b ∧ ∀ m, b ≠ .fin 0 m :=
  ⟨.binary32, .nan, .of (mkRat 1 2), by decide, by decide, fun m h => by
    have := congrArg ratOf h
    revert this; cases m <;> decide⟩

theorem wit_ClampProperties :
    ∃ cfg : Config, cfg.valid ∧ InRange cfg (.of 2000) ∧ InRange cfg (.of 4000) ∧ ¬ flt (.of 4000) (.of 2000) :=
  ⟨Config.default, by decide, ⟨_, _, rfl, by norm_num [Config.default], by norm_num [Config.default]⟩,
    ⟨_, _, rfl, by norm_num [Config.default], by norm_num [Config.default]⟩, by decide⟩

/-- The new position of a channel whose raw target is `raw`, as `ChStepResult` writes it. -/
def newPosition (cfg : Config) (raw : Num) (k : Channel) : Num :=
  clamp cfg (fadd cfg.format k.chan.currentPosition
    (pidUpdate cfg k.pid (clamp cfg raw) k.chan.currentPosition).lastOutput)

theorem wit_ChStepResult :
    (∃ (s : State) (c : Fin s.cfg.nch) (k : Channel) (kc : ChannelConfig) (p : Setpoints), s.cfg.valid
        ∧ s.channels[c.val]? = some k ∧ s.cfg.channels[c.val]? = some kc ∧ newPosition s.cfg (p.get kc.spSel) k ≠ .nan)
      ∧ ∃ (s : State) (c : Fin s.cfg.nch) (k : Channel) (kc : ChannelConfig) (p : Setpoints), s.cfg.valid
        ∧ s.channels[c.val]? = some k ∧ s.cfg.channels[c.val]? = some kc ∧ newPosition s.cfg (p.get kc.spSel) k = .nan :=
  ⟨⟨State.reset, ch1.index, Channel.atReset Config.default (Config.scenarioGains .x), Config.scenarioGains .x,
      ⟨.of 3100, .of 3000⟩, by decide⟩,
    ⟨State.reset, ch2.index, Channel.atReset Config.default (Config.scenarioGains .y), Config.scenarioGains .y,
      ⟨.of 3100, .nan⟩, by decide⟩⟩

theorem wit_TickServesEveryChannelOnce :
    (∃ s : State, s.cfg.valid ∧ ∀ k ∈ tickedChannels s, k.chan.currentPosition ≠ .nan)
      ∧ ∃ s : State, s.cfg.valid ∧ ∃ k ∈ tickedChannels s, k.chan.currentPosition = .nan :=
  ⟨⟨{ State.reset with acc := ⟨.of 3100, .of 2500⟩ }, by decide⟩, ⟨{ State.reset with acc := ⟨.of 3100, .nan⟩ }, by decide⟩⟩

theorem wit_ChannelOrderDoesNotMatter :
    ∃ (s t u : State) (c d : ChannelId) (p : Setpoints), s.cfg.valid ∧ c ≠ d
      ∧ andThen (exec (.chStep c p) s) (exec (.chStep d p)) = .next t
      ∧ andThen (exec (.chStep d p) s) (exec (.chStep c p)) = .next u := by
  obtain ⟨t, ht⟩ := next_of_onNext (o := andThen (exec (.chStep ch1 ⟨.of 3100, .of 2500⟩) State.reset)
    (exec (.chStep ch2 ⟨.of 3100, .of 2500⟩))) (by decide)
  obtain ⟨u, hu⟩ := next_of_onNext (o := andThen (exec (.chStep ch2 ⟨.of 3100, .of 2500⟩) State.reset)
    (exec (.chStep ch1 ⟨.of 3100, .of 2500⟩))) (by decide)
  exact ⟨_, t, u, ch1, ch2, _, by decide, by decide, ht, hu⟩

/-- A running state: one channel, at 2500 on its way to 2600, a tick to come. -/
def running : State :=
  { State.resetWith { Config.default with channels := [Config.scenarioGains .x] } with
    acc := ⟨.of 2600, .of 3000⟩
    channels := [⟨⟨.of (mkRat 5 2), .of 0, .of 15, .of 100, .of 100, .of 100, .of (mkRat 35 2)⟩,
      ⟨.of 2500, .of 2600, .of (mkRat 35 2)⟩, some 2500#16⟩]
    sized := rfl
    input := [.tick] }

theorem running_inv : Inv running := by
  refine ⟨by decide, by decide, by decide, .cons ?_ .nil⟩
  have r : ∀ q : ℚ, 2000 ≤ q → q ≤ 4000 → InRange running.cfg (.of q) := fun q h1 h2 => ⟨q, false, rfl, h1, h2⟩
  exact ⟨⟨rfl, rfl, rfl⟩, by decide, by decide, by decide, rfl, r _ (by norm_num) (by norm_num), by decide,
    r _ (by norm_num) (by norm_num), by decide, rfl, fun w hw => by cases hw; decide⟩

theorem wit_StepKeepsInvariant : ∃ s t : State, Inv s ∧ step s = .next t := by
  obtain ⟨t, ht⟩ := next_of_onNext (o := step running) (by decide)
  exact ⟨running, t, running_inv, ht⟩

theorem wit_ResetHasInvariant : ∃ cfg : Config, cfg.valid ∧ cfg.pwMin = cfg.pwMax :=
  ⟨{ Config.default with pwMin := 3000, pwMax := 3000 }, by decide⟩

theorem wit_OnlyStopIsNanOnTick : ∃ s : State, Inv s ∧ s.input = [.tick] := ⟨running, running_inv, rfl⟩

theorem wit_BaselineNeverFaults : ∃ s : State, BoundedBaseline s := by
  have b : ∀ (c q : ℚ), |q| ≤ c → Bounded c (.of q) := fun c q h => ⟨q, false, rfl, h⟩
  have g : ∀ q : ℚ, |q| ≤ 15 → Bounded (2 ^ 60) (.of q) := fun q h => b _ q (h.trans (by norm_num))
  have h52 : |mkRat 5 2| ≤ 15 := by rw [Rat.mkRat_eq_div]; norm_num [abs_of_pos]
  have h0 : |(0 : ℚ)| ≤ 15 := by norm_num
  have h15 : |(15 : ℚ)| ≤ 15 := by norm_num
  refine ⟨running, by decide, by decide, rfl, rfl, ?_, by decide, by decide, ?_⟩
  · intro kc hkc
    obtain rfl := List.mem_singleton.mp hkc
    exact ⟨g _ h52, g _ h0, g _ h15⟩
  · intro k hk
    obtain rfl := List.mem_singleton.mp hk
    exact ⟨⟨g _ h52, g _ h0, g _ h15⟩, b _ _ (by norm_num), b _ _ (by norm_num), rfl,
      ⟨2500, false, rfl, by norm_num [running, State.resetWith, Config.default],
        by norm_num [running, State.resetWith, Config.default]⟩⟩

theorem wit_SetPulseContract :
    (∃ (s : State) (ch : ℤ), s.cfg.valid ∧ ch < 1 ∧ ch = 0) ∧ (∃ (s : State) (ch : ℤ), s.cfg.valid ∧ (s.cfg.nch : ℤ) < ch ∧ ch = 3)
      ∧ (∃ (s : State) (ch : ℤ) (c : ℕ) (k : Channel), s.cfg.valid ∧ ch = c + 1 ∧ s.channels[c]? = some k ∧ ch = 1)
      ∧ ∃ (s : State) (ch : ℤ) (c : ℕ) (k : Channel), s.cfg.valid ∧ ch = c + 1 ∧ s.channels[c]? = some k ∧ ch = 2 :=
  ⟨⟨State.reset, 0, by decide⟩, ⟨State.reset, 3, by decide⟩,
    ⟨State.reset, 1, 0, Channel.atReset Config.default (Config.scenarioGains .x), by decide⟩,
    ⟨State.reset, 2, 1, Channel.atReset Config.default (Config.scenarioGains .y), by decide⟩⟩

theorem wit_InsertedSnapIsInvisible : ∃ s : State, s.cfg.valid := ⟨running, by decide⟩

theorem wit_ChannelsHoldBetweenTicks :
    ∃ (s t : State) (e : Event) (es : List Event), s.input = e :: es ∧ e ≠ .tick ∧ e ≠ .reset ∧ step s = .next t :=
  ⟨start .waitSync1 scrA [.snap], _, .snap, [], rfl, by decide, by decide, by rw [step_cons (by decide) rfl]; rfl⟩

theorem wit_ConstantsAndOwnership (e : Event) :
    ∃ (s t : State) (es : List Event), s.input = e :: es ∧ step s = .next t := by
  refine ⟨start .waitSync1 scrA [e], ?_⟩
  have h : ∃ t, step (start .waitSync1 scrA [e]) = .next t := by
    rw [step_cons (es := []) (by exact smoke_config_default) rfl]
    cases e with
    | rx b => by_cases hb : b = Config.sync <;> simp [decodeEvent, decodeByte, start, hb, exec, execRxWs1Sync, execRxWs1Skip]
    | tick => exact next_of_onNext (by decide)
    | snap => exact ⟨_, rfl⟩
    | reset => exact ⟨_, rfl⟩
  exact h.imp fun t ht => ⟨[], rfl, ht⟩

/-- In `B1` the first byte is live and the other four are not. -/
theorem wit_DeadScratchIsUnobservable : ∃ s t : State, SameButDeadScratch s t ∧ s ≠ t :=
  ⟨start .b1 scrA [], start .b1 ⟨0x00#8, 0xFF#8, 0xFF#8, 0xFF#8, 0xFF#8⟩ [], ⟨rfl, by simp [AgreeOn, start, scrA, liveBytes]⟩, by decide⟩

theorem wit_ByteAndTickCommute : ∃ (s : State) (b : Byte), decodeByte s.fsm s.scratch b ≠ .rxWs2Commit ∧ b = 0x55#8 :=
  ⟨start .b4 scrA [], 0x55#8, by decide⟩

theorem wit_CommitIsExactInSmallRange :
    ∃ (s : State) (x y : ℤ) (a b : Bool), s.acc = ⟨.fin x a, .fin y b⟩ ∧ |x| < 2 ^ 24 - 32767 ∧ |y| < 2 ^ 24 - 32767 :=
  ⟨{ State.reset with acc := ⟨.fin (16744448 : ℤ) false, .fin (-16744448 : ℤ) false⟩ }, 16744448, -16744448, false, false,
    rfl, by decide, by decide⟩

theorem wit_LargeAccumulatorAbsorbsDelta :
    ∃ (q : ℚ) (d : ℤ), isFiniteValue .binary32 q ∧ 2 ^ 39 < |q| ∧ -32767 ≤ d ∧ d ≤ 32767 ∧ d = 32767 :=
  ⟨(2 ^ 39 + 2 ^ 16 : ℕ), 32767, by decide, by norm_num, by norm_num⟩

theorem wit_NoDeadlineIsEverNoted :
    ∃ (i : Instr) (s t : State), exec i s = .next t ∧ .deadlineMiss ∉ s.labels :=
  ⟨.rxWs1Skip 0x13#8, State.reset, _, rfl, by decide⟩

end Sys2Proof.Tests
end

section
/-!
SUPPORT. What keeps the invariant (R19, R99): the state after reset has it; a tick keeps it channel by
channel, because a target that is NaN makes the position NaN and so stops the tick (R96).
-/

namespace Sys2Proof.Machine

/-- The invariant reads the configuration, the accumulators and the channel records only. -/
theorem Inv.of_fields {s t : State} (hi : Inv s) (hcfg : t.cfg = s.cfg)
    (hx : isValue s.cfg.format t.acc.x) (hy : isValue s.cfg.format t.acc.y)
    (hch : List.Forall₂ (ChannelInv s.cfg) s.cfg.channels t.channels) : Inv t :=
  ⟨hcfg ▸ hi.config_valid, hcfg ▸ hx, hcfg ▸ hy, hcfg ▸ hch⟩

/-- What leaves the block does not touch the invariant. -/
theorem Inv.emit {s : State} (hi : Inv s) (o : Output) : Inv (s.emit o) :=
  hi.of_fields rfl hi.acc_x_value hi.acc_y_value hi.channels

theorem isValue_zero (f : NumFormat) : isValue f (.of 0) := by
  simp [isValue, isFiniteValue_zero]

/-- A channel right after reset is as `ChannelInv` says. -/
theorem channelInv_atReset {cfg : Config} (hv : cfg.valid) (kc : ChannelConfig) :
    ChannelInv cfg kc (Channel.atReset cfg kc) where
  gains := ⟨rfl, rfl, rfl⟩
  error_value := isValue_zero _
  integral_value := isValue_zero _
  output_value := isValue_zero _
  previous_is_error := rfl
  position_in_range := (validConfig hv).pos_range
  position_value := (validConfig hv).pos_value
  target_in_range := (validConfig hv).pos_range
  target_value := (validConfig hv).pos_value
  velocity_is_output := rfl
  pulse_is_position := fun _ hw => nomatch hw

/-- A state whose registers are those of a reset (R28, R135) has the invariant, whatever its scratch
bytes. -/
theorem Inv.of_resetRegisters {s : State} (hv : s.cfg.valid) (hacc : s.acc = ⟨s.cfg.spReset, s.cfg.spReset⟩)
    (hch : s.channels = s.cfg.channels.map (Channel.atReset s.cfg)) : Inv s where
  config_valid := hv
  acc_x_value := by rw [hacc]; exact (validConfig hv).sp_value
  acc_y_value := by rw [hacc]; exact (validConfig hv).sp_value
  channels := by
    rw [hch, List.forall₂_map_right_iff, List.forall₂_same]
    exact fun kc _ => channelInv_atReset hv kc

/-- The accumulators stay values of the format, whether or not a byte commits. -/
theorem accAfterByte_isValue {s : State} (hx : isValue s.cfg.format s.acc.x) (hy : isValue s.cfg.format s.acc.y)
    (b : Byte) :
    isValue s.cfg.format (accAfterByte b s).x ∧ isValue s.cfg.format (accAfterByte b s).y := by
  unfold accAfterByte
  split
  · exact ⟨fadd_isValue hx (ofInt_isValue _ _), fadd_isValue hy (ofInt_isValue _ _)⟩
  · exact ⟨hx, hy⟩

/-- A NaN error makes the PID output NaN. -/
@[simp] theorem pidOutput_nan_error (f : NumFormat) (kp ki kd i prev : Num) :
    pidOutput f kp ki kd .nan i prev = .nan := by
  simp [pidOutput]

/-- A NaN target makes the new position NaN. -/
theorem tickedChannel_position_of_nan_target {cfg : Config} {raw : Num} (h : clamp cfg raw = .nan) (k : Channel) :
    (tickedChannel cfg raw k).chan.currentPosition = .nan := by
  simp [tickedChannel, pidUpdate, h]

/-- A position in range is the number of the width it is cast to. -/
theorem trunc_eq_of_cast {cfg : Config} (hv : cfg.valid) {pos : Num} (hr : InRange cfg pos) {w : Width}
    (hw : (trunc pos).map (BitVec.ofInt 16) = some w) : trunc pos = some (w.toNat : ℤ) := by
  obtain ⟨n, hn, -, -, hle, -⟩ := trunc_inRange hv hr
  rw [hn, Option.map_some, Option.some_inj, BitVec.ofInt_natCast] at hw
  rw [hn, ← hw, BitVec.toNat_ofNat, Nat.mod_eq_of_lt (by omega)]

/-- The values that one evaluation of the control law stores are values of the format (R80). -/
theorem pidUpdate_isValue {cfg : Config} (hv : cfg.valid) {p : PidChannel} {target current : Num}
    (hp : isValue cfg.format p.gainP) (hi : isValue cfg.format p.gainI) (hd : isValue cfg.format p.gainD)
    (hint : isValue cfg.format p.integralAccumulator) (hprev : isValue cfg.format p.previousError)
    (ht : isValue cfg.format target) (hc : isValue cfg.format current) :
    isValue cfg.format (pidUpdate cfg p target current).error
      ∧ isValue cfg.format (pidUpdate cfg p target current).integralAccumulator
      ∧ isValue cfg.format (pidUpdate cfg p target current).lastOutput := by
  have he := fsub_isValue ht hc
  have hint' := limit_isValue hv (fadd_isValue hint he)
  exact ⟨he, hint', pidOutput_isValue hp hi hd he hint' hprev⟩

/-- A tick that does not stop at this channel keeps `ChannelInv`. -/
theorem ChannelInv.ticked {cfg : Config} (hv : cfg.valid) {kc : ChannelConfig} (hkc : kc ∈ cfg.channels)
    {raw : Num} (hraw : isValue cfg.format raw) {k : Channel} (h : ChannelInv cfg kc k)
    (hpos : (tickedChannel cfg raw k).chan.currentPosition ≠ .nan) :
    ChannelInv cfg kc (tickedChannel cfg raw k) := by
  obtain ⟨hgp, hgi, hgd⟩ := h.gains
  obtain ⟨hp, -, hi, -, hd, -⟩ := (validConfig hv).gains kc hkc
  rw [← hgp] at hp
  rw [← hgi] at hi
  rw [← hgd] at hd
  have htarget := clamp_isValue hraw
  obtain ⟨herr, hint, hout⟩ := pidUpdate_isValue hv hp hi hd h.integral_value
    (h.previous_is_error ▸ h.error_value) htarget h.position_value
  have htr : InRange cfg (clamp cfg raw) :=
    (clamp_cases hv raw).resolve_left fun hn => hpos (tickedChannel_position_of_nan_target hn.2 k)
  have hpr : InRange cfg (tickedChannel cfg raw k).chan.currentPosition :=
    (clamp_cases hv _).resolve_left fun hn => hpos hn.2
  exact
    { gains := h.gains
      error_value := herr
      integral_value := hint
      output_value := hout
      previous_is_error := rfl
      position_in_range := hpr
      position_value := clamp_isValue (fadd_isValue h.position_value hout)
      target_in_range := htr
      target_value := htarget
      velocity_is_output := rfl
      pulse_is_position := fun _ hw => trunc_eq_of_cast hv hpr hw }

/-- Elementwise: where `f` takes related pairs to related ones, `zipWith f` does. -/
theorem forall₂_zipWith {α β γ : Type} {R : α → β → Prop} {S : α → γ → Prop} {f : α → β → γ} {as : List α}
    {bs : List β} (h : List.Forall₂ R as bs)
    (hf : ∀ a ∈ as, ∀ b, f a b ∈ List.zipWith f as bs → R a b → S a (f a b)) :
    List.Forall₂ S as (List.zipWith f as bs) := by
  induction h with
  | nil => exact .nil
  | cons hab _ ih =>
    exact .cons (hf _ List.mem_cons_self _ List.mem_cons_self hab)
      (ih fun a ha b hb => hf a (List.mem_cons_of_mem _ ha) b (List.mem_cons_of_mem _ hb))

/-- An element of the snapshot is one of the accumulators. -/
theorem Inv.get_isValue {s : State} (hi : Inv s) (a : Axis) : isValue s.cfg.format (s.acc.get a) := by
  cases a
  · exact hi.acc_x_value
  · exact hi.acc_y_value

/-- A tick that completes leaves the records `tickedChannels`, and no position is NaN (R92, R96). -/
theorem execTick_channels {s t : State} (hv : s.cfg.valid) (h : execTick s = .next t) :
    t.channels = tickedChannels s ∧ ∀ k ∈ tickedChannels s, k.chan.currentPosition ≠ .nan := by
  obtain ⟨hnext, hstop⟩ := stepChannels_spec s.acc (allChannels s.cfg.nch) s.cfg.channels [] s.channels [] s hv
    rfl rfl rfl (consecutive_allChannels _)
  have hnan : ∀ k ∈ tickedChannels s, k.chan.currentPosition ≠ .nan := fun k hk hn => by
    cases (hstop ⟨k, hk, hn⟩).symm.trans h
  obtain ⟨_, _, -, hs⟩ := hnext hnan
  cases hs.symm.trans h
  exact ⟨rfl, hnan⟩

theorem Inv.tick {s t : State} (hi : Inv s) (h : execTick s = .next t) : Inv t := by
  obtain ⟨hch, hnan⟩ := execTick_channels hi.config_valid h
  obtain ⟨_, _, _, _, rfl, -⟩ := execTick_frame h
  refine hi.of_fields rfl hi.acc_x_value hi.acc_y_value (hch ▸ forall₂_zipWith hi.channels ?_)
  exact fun kc hkc k hk hinv => hinv.ticked hi.config_valid hkc (hi.get_isValue _) (hnan _ hk)

theorem Inv.rx {s t : State} (hi : Inv s) {b : Byte} (h : execRx b s = .next t) : Inv t := by
  obtain ⟨_, _, _, hr⟩ := execRx_next b s
  cases hr.symm.trans h
  obtain ⟨hx, hy⟩ := accAfterByte_isValue hi.acc_x_value hi.acc_y_value b
  exact hi.of_fields rfl hx hy hi.channels

/-- Settles O36, by the event that the step serves. -/
theorem stepKeepsInvariant : Obligations.StepKeepsInvariant := by
  intro s t hi h
  have hserved (es : List Event) : Inv (served s es) :=
    hi.of_fields rfl hi.acc_x_value hi.acc_y_value hi.channels
  rw [step_eq, if_pos hi.config_valid] at h
  split at h
  next => cases h; exact hi
  next b es _ => exact (hserved es).rx h
  next es _ => exact (hserved es).tick h
  next es _ => cases h; exact (hserved es).emit _
  next es _ => cases h; exact .of_resetRegisters hi.config_valid rfl rfl

/-- Settles O37. -/
theorem resetHasInvariant : Obligations.ResetHasInvariant :=
  have h (cfg : Config) (hv : cfg.valid) : Inv (State.resetWith cfg) := .of_resetRegisters hv rfl rfl
  ⟨h, h Config.default (by decide)⟩

/-- Settles O45: every record is `Channel.atReset` of the default configuration. -/
theorem resetStateValues : Obligations.ResetStateValues := by
  refine ⟨rfl, rfl, rfl, rfl, fun k hk => ?_⟩
  obtain ⟨kc, -, rfl⟩ : ∃ kc ∈ Config.default.channels, Channel.atReset Config.default kc = k := List.mem_map.mp hk
  exact ⟨rfl, rfl, rfl, rfl, rfl, rfl⟩

end Sys2Proof.Machine
end

section
/-!
SUPPORT. What a step takes as parameters (R23, R29): no operation writes the configuration or the events
to come, a step is `Block.serve` of its event, and gains change by `RESET` alone (R14).
-/

namespace Sys2Proof.Machine

/-- The parameters that stand beside the block are those of before. -/
def SameParameters (s t : State) : Prop := t.cfg = s.cfg ∧ t.input = s.input

theorem ChannelsChanged.sameParameters {s t : State} (h : ChannelsChanged s t) : SameParameters s t := by
  obtain ⟨_, _, _, _, rfl, -⟩ := h
  exact ⟨rfl, rfl⟩

theorem execRx_sameParameters {b : Byte} {s t : State} (h : execRx b s = .next t) : SameParameters s t := by
  obtain ⟨_, _, _, hr⟩ := execRx_next b s
  cases hr.symm.trans h
  exact ⟨rfl, rfl⟩

theorem execRxAll_sameParameters {bs : List Byte} {s t : State} (h : execRxAll bs s = .next t) :
    SameParameters s t := by
  induction bs generalizing s with
  | nil => cases h; exact ⟨rfl, rfl⟩
  | cons b bs ih =>
    obtain ⟨u, hu, ht⟩ := andThen_eq_next.mp h
    obtain ⟨hcfg, hinput⟩ := execRx_sameParameters hu
    obtain ⟨hcfg', hinput'⟩ := ih ht
    exact ⟨hcfg'.trans hcfg, hinput'.trans hinput⟩

/-- No operation writes the configuration or the events to come. -/
theorem exec_sameParameters {i : Instr} {s t : State} (h : exec i s = .next t) : SameParameters s t := by
  cases i with
  | pidCompute c target current => exact (execPidCompute_frame h).sameParameters
  | tick => exact (execTick_frame h).sameParameters
  | chStep c p => exact (execChStep_frame h).sameParameters
  | setPulse ch w =>
    obtain ⟨u, hu, hc⟩ := execSetPulse_frame ch w s
    cases hu.symm.trans h
    exact hc.sameParameters
  | frame7 xHi xLo yHi yLo cs => exact execRxAll_sameParameters h
  | rxWs1Sync => cases h; exact ⟨rfl, rfl⟩
  | rxWs1Skip b => cases h; exact ⟨rfl, rfl⟩
  | rxB0 b => cases h; exact ⟨rfl, rfl⟩
  | rxB1 b => cases h; exact ⟨rfl, rfl⟩
  | rxB2 b => cases h; exact ⟨rfl, rfl⟩
  | rxB3 b => cases h; exact ⟨rfl, rfl⟩
  | rxB4 b => cases h; exact ⟨rfl, rfl⟩
  | rxWs2Commit => cases h; exact ⟨rfl, rfl⟩
  | rxWs2Badsum => cases h; exact ⟨rfl, rfl⟩
  | rxWs2Abort b => cases h; exact ⟨rfl, rfl⟩
  | snap => cases h; exact ⟨rfl, rfl⟩
  | reset => cases h; exact ⟨rfl, rfl⟩

/-- The machine on which an event is served: the block with its parameters, and nothing recorded. -/
def Block.start (cfg : Config) (n : ℕ) (b : Block) (sized : b.channels.length = cfg.nch) : State :=
  { b with cfg := cfg, sized := sized, input := [], out := [], labels := [], free := n }

/-- What an outcome says of the block. -/
def reactionOf : Host.Outcome State Fault Refusal → Host.Outcome Reaction Fault Refusal
  | .next t => .next ⟨t.toBlock, t.out, t.labels⟩
  | .fault r => .fault r
  | .refused r => .refused r

theorem blockServe_eq (cfg : Config) (e : Event) (n : ℕ) (b : Block) (sized : b.channels.length = cfg.nch) :
    Block.serve cfg e n b sized = reactionOf (exec (decodeEvent b.fsm b.scratch e) (b.start cfg n sized)) := rfl

/-- Serving an event on the machine's block is performing its operation with nothing recorded. -/
theorem blockServe_toBlock (s : State) (e : Event) :
    Block.serve s.cfg e s.free s.toBlock s.sized =
      reactionOf (exec (decodeEvent s.fsm s.scratch e) (served s [])) := rfl

/-- A step performs its operation with nothing recorded, and leaves the rest of the trace. -/
theorem step_eq_put {s : State} (hv : s.cfg.valid) {e : Event} {es : List Event} (hs : s.input = e :: es) :
    step s = mapNext (State.put es [] []) (exec (decodeEvent s.fsm s.scratch e) (served s [])) := by
  rw [step_cons hv hs, ← exec_put]
  rfl

@[simp] theorem reactionOf_withFree (n : ℕ) (o : Host.Outcome State Fault Refusal) :
    reactionOf (mapNext (State.withFree n) o) = reactionOf o := by
  cases o <;> rfl

theorem decodeByte_ne_reset (fsm : Fsm) (k : Scratch) (b : Byte) : decodeByte fsm k b ≠ .reset := by
  fun_cases decodeByte fsm k b <;> nofun

/-- `RESET` alone is decoded to the reset operation. -/
theorem decodeEvent_ne_reset {e : Event} (he : e ≠ .reset) (fsm : Fsm) (k : Scratch) :
    decodeEvent fsm k e ≠ .reset := by
  cases e with
  | rx b => exact decodeByte_ne_reset fsm k b
  | tick => simp [decodeEvent]
  | snap => simp [decodeEvent]
  | reset => exact absurd rfl he

/-- The counter of free bytes matters to `RESET` alone. -/
theorem blockServe_free {cfg : Config} {e : Event} (he : e ≠ .reset) (m n : ℕ) (b : Block)
    (h : b.channels.length = cfg.nch) : Block.serve cfg e m b h = Block.serve cfg e n b h := by
  have hstart : b.start cfg m h = (b.start cfg n h).withFree m := rfl
  rw [blockServe_eq, blockServe_eq, hstart, exec_withFree _ _ (decodeEvent_ne_reset he _ _), reactionOf_withFree]

/-- Settles O10: a step performs on the block's machine what `Block.serve` performs (`step_eq_put`). -/
theorem stepPassesParameters : Obligations.StepPassesParameters := by
  refine ⟨fun s e es hv hs => ?_, fun cfg e m n b h he => blockServe_free he m n b h,
    fun i s t h => exec_sameParameters h⟩
  rw [step_eq_put hv hs, blockServe_toBlock]
  cases ho : exec (decodeEvent s.fsm s.scratch e) (served s []) with
  | next t =>
    refine ⟨fun r hr => ?_, nofun, nofun⟩
    cases hr
    exact ⟨t.put es [] [], rfl, rfl, rfl, rfl, (exec_sameParameters ho).1, rfl⟩
  | fault f =>
    refine ⟨nofun, fun g hg => ?_, nofun⟩
    cases hg; rfl
  | refused f =>
    refine ⟨nofun, nofun, fun g hg => ?_⟩
    cases hg; rfl

/-- A step that answers a next state has performed the operation of its event. -/
theorem exec_of_step {s t : State} {e : Event} {es : List Event} (hs : s.input = e :: es) (h : step s = .next t) :
    exec (decodeEvent s.fsm s.scratch e) (served s es) = .next t := by
  obtain ⟨-, -, hv⟩ := step_input hs h
  rw [← step_cons hv hs, h]

/-- A step on any event but `RESET` keeps every channel's gains. -/
theorem step_gains {s t : State} {e : Event} {es : List Event} (hs : s.input = e :: es) (he : e ≠ .reset)
    (h : step s = .next t) : t.channels.map Channel.gains = s.channels.map Channel.gains := by
  replace h := exec_of_step hs h
  cases e with
  | rx b =>
    obtain ⟨_, _, _, hr⟩ := execRx_next b (served s es)
    rw [execRx_eq] at hr
    cases hr.symm.trans h
    rfl
  | tick =>
    obtain ⟨_, _, _, _, rfl, hg, -⟩ := execTick_frame h
    exact hg
  | snap => cases h; rfl
  | reset => exact absurd rfl he

/-- A step on `RESET` loads the configured gains. -/
theorem step_reset_gains {s t : State} {es : List Event} (hs : s.input = .reset :: es) (h : step s = .next t) :
    t.channels.map Channel.gains = s.cfg.channels.map fun kc => (kc.gainP, kc.gainI, kc.gainD) := by
  cases exec_of_step hs h
  exact List.map_map

/-- A `TICK` writes none of the receiver's registers (R101). -/
theorem step_tick_receiver {s t : State} {es : List Event} (hs : s.input = .tick :: es) (h : step s = .next t) :
    t.acc = s.acc ∧ t.fsm = s.fsm ∧ t.scratch = s.scratch := by
  obtain ⟨_, _, _, _, rfl, -⟩ := execTick_frame (exec_of_step hs h)
  exact ⟨rfl, rfl, rfl⟩

/-- Settles O47. -/
theorem constantsAndOwnership : Obligations.ConstantsAndOwnership := by
  intro s t e es hs h
  obtain ⟨hinput, hcfg, -⟩ := step_input hs h
  refine ⟨hcfg, hinput, fun he => step_gains hs he h, ?_, ?_⟩
  · rintro rfl; exact step_reset_gains hs h
  · rintro rfl; exact step_tick_receiver hs h

end Sys2Proof.Machine
end

section
/-!
SUPPORT. Scratch bytes that the frame in progress has not written are unobservable (R12): the channel
operations read nothing of the receiver, and the receiver reads a scratch byte only after writing it.
-/

namespace Sys2Proof.Machine

/-- `s` with other registers of the receiver. -/
def State.withReceiver (f : Fsm) (k : Scratch) (a : Setpoints) (s : State) : State :=
  { s with fsm := f, scratch := k, acc := a }

section
variable (f : Fsm) (k : Scratch) (a : Setpoints)

/-- `CH.STEP` neither reads nor writes the receiver's registers: its target comes from the snapshot. -/
theorem execChStep_withReceiver {s : State} (hv : s.cfg.valid) (c : ChannelId) (p : Setpoints) :
    execChStep c p (s.withReceiver f k a) = mapNext (State.withReceiver f k a) (execChStep c p s) := by
  by_cases hc : c.nch = s.cfg.nch
  · obtain ⟨n, i⟩ := c
    obtain rfl : n = s.cfg.nch := hc
    refine (execChStep_eq (s := s.withReceiver f k a) hv i p).trans ?_
    rw [execChStep_eq hv, apply_ite (mapNext (State.withReceiver f k a))]
    rfl
  · rw [execChStep_other hc]
    exact execChStep_other (s := s.withReceiver f k a) hc p

/-- Once the snapshot is taken, a tick neither reads nor writes the receiver's registers (R36, R101). -/
theorem stepChannels_withReceiver {s : State} (hv : s.cfg.valid) (p : Setpoints) (cs : List ChannelId) :
    stepChannels p cs (s.withReceiver f k a) = mapNext (State.withReceiver f k a) (stepChannels p cs s) := by
  induction cs generalizing s with
  | nil => rfl
  | cons c cs ih =>
    rw [stepChannels, stepChannels, execChStep_withReceiver f k a hv]
    cases hu : execChStep c p s with
    | next u =>
      obtain ⟨_, _, _, _, rfl, -⟩ := execChStep_frame hu
      exact ih hv
    | fault r => rfl
    | refused r => rfl
end

/-- `s` with another scratch buffer. -/
def State.withScratch (k : Scratch) (s : State) : State := { s with scratch := k }

@[simp] theorem withScratch_fsm (k : Scratch) (s : State) : (s.withScratch k).fsm = s.fsm := rfl
@[simp] theorem withScratch_scratch (k : Scratch) (s : State) : (s.withScratch k).scratch = k := rfl

/-- States that differ in dead scratch bytes: the one with another buffer that agrees on the live bytes. -/
theorem sameButDeadScratch_iff {s t : State} :
    SameButDeadScratch s t ↔ ∃ k, t = s.withScratch k ∧ AgreeOn (liveBytes s.fsm) s.scratch k := by
  constructor
  · rintro ⟨ht, ha⟩
    exact ⟨t.scratch, ht, ha⟩
  · rintro ⟨k, rfl, ha⟩
    exact ⟨rfl, ha⟩

@[simp] theorem agreeOn_zero (k l : Scratch) : AgreeOn 0 k l := by simp [AgreeOn]

theorem AgreeOn.refl (n : ℕ) (k : Scratch) : AgreeOn n k k :=
  ⟨fun _ => rfl, fun _ => rfl, fun _ => rfl, fun _ => rfl, fun _ => rfl⟩

/-- Buffers that agree on all five bytes are equal. -/
theorem AgreeOn.eq {k l : Scratch} (h : AgreeOn 5 k l) : k = l := by
  obtain ⟨h0, h1, h2, h3, h4⟩ := h
  cases k; cases l
  simp_all

theorem SameButDeadScratch.refl (s : State) : SameButDeadScratch s s := ⟨rfl, .refl _ _⟩

theorem OutcomeRel.of_eq {R : State → State → Prop} (hR : ∀ s, R s s) {o o' : Host.Outcome State Fault Refusal}
    (h : o = o') : OutcomeRel R o o' := by
  subst h
  cases o with
  | next s => exact hR s
  | fault r => rfl
  | refused r => rfl

/-- Relating an outcome to its image. -/
theorem outcomeRel_mapNext {R : State → State → Prop} {g : State → State} {o : Host.Outcome State Fault Refusal}
    (h : ∀ t, o = .next t → R t (g t)) : OutcomeRel R o (mapNext g o) := by
  cases o with
  | next t => exact h t rfl
  | fault r => rfl
  | refused r => rfl

/-- Outcomes that are alike stay alike under continuations that keep the relation. -/
theorem OutcomeRel.andThen {R S : State → State → Prop} {o o' : Host.Outcome State Fault Refusal}
    {k k' : State → Host.Outcome State Fault Refusal} (h : OutcomeRel R o o')
    (hk : ∀ s t, R s t → OutcomeRel S (k s) (k' t)) : OutcomeRel S (andThen o k) (andThen o' k') := by
  cases o <;> cases o'
  case next.next s t => exact hk s t h
  case fault.fault => exact h
  case refused.refused => exact h
  all_goals exact h.elim

/-- A byte is served alike whatever the dead scratch bytes: a payload byte writes its own and makes it
live, and the checksum is tested when all five are live. -/
theorem execRx_deadScratch (b : Byte) {s : State} {k : Scratch} (ha : AgreeOn (liveBytes s.fsm) s.scratch k) :
    OutcomeRel SameButDeadScratch (execRx b s) (execRx b (s.withScratch k)) := by
  unfold execRx
  rw [withScratch_fsm]
  cases hf : s.fsm <;> rw [hf] at ha <;> simp only
  case waitSync1 =>
    split
    · exact ⟨rfl, agreeOn_zero _ _⟩
    · refine ⟨rfl, ?_⟩
      rw [note_fsm, hf]
      exact agreeOn_zero _ _
  case waitSync2 =>
    have hs : s.withScratch k = s := by rw [← AgreeOn.eq ha]; rfl
    rw [hs]
    exact .of_eq .refl rfl
  all_goals
    refine ⟨rfl, ?_⟩
    simp_all [AgreeOn, liveBytes]

/-- A tick is served alike whatever the dead scratch bytes, and leaves them dead. -/
theorem execTick_deadScratch {s : State} (hv : s.cfg.valid) {k : Scratch}
    (ha : AgreeOn (liveBytes s.fsm) s.scratch k) :
    OutcomeRel SameButDeadScratch (execTick s) (execTick (s.withScratch k)) := by
  have hk : execTick (s.withScratch k) = mapNext (State.withReceiver s.fsm k s.acc) (execTick s) :=
    stepChannels_withReceiver s.fsm k s.acc hv s.acc _
  rw [hk]
  refine outcomeRel_mapNext fun t ht => ?_
  obtain ⟨_, _, _, _, rfl, -⟩ := execTick_frame ht
  exact ⟨rfl, ha⟩

/-- One event is served alike whatever the dead scratch bytes. -/
theorem serve_deadScratch (e : Event) {s t : State} (h : SameButDeadScratch s t) :
    OutcomeRel SameButDeadScratch (serve e s) (serve e t) := by
  obtain ⟨k, rfl, ha⟩ := sameButDeadScratch_iff.mp h
  have hcfg : (s.withScratch k).cfg = s.cfg := rfl
  have hserved : served (s.withScratch k) [] = (served s []).withScratch k := rfl
  unfold serve
  rw [hcfg, hserved]
  split
  · rename_i hv
    cases e with
    | rx b =>
      have := execRx_deadScratch b (s := served s []) ha
      rwa [execRx_eq, execRx_eq] at this
    | tick => exact execTick_deadScratch (s := served s []) hv ha
    | snap => exact ⟨rfl, ha⟩
    | reset => exact .of_eq .refl rfl
  · rfl

/-- Settles O48, by induction on the event trace. -/
theorem deadScratchIsUnobservable : Obligations.DeadScratchIsUnobservable := by
  intro s t es h
  induction es generalizing s t with
  | nil =>
    obtain ⟨k, rfl, ha⟩ := sameButDeadScratch_iff.mp h
    exact ⟨rfl, ha⟩
  | cons e es ih =>
    rw [deliver_cons_serve, deliver_cons_serve]
    exact (serve_deadScratch e h).andThen ih

end Sys2Proof.Machine
end

section
/-!
SUPPORT. What an event selects (R47, R51): the operation is well-formed, and a table word of 8 bits is
the event of its one byte (log entry 9).
-/

namespace Sys2Proof.Machine

/-- A byte selects a well-formed operation: it is skipped or aborts a frame only where it is not the
byte that the decoder waits for (R47). -/
theorem decodeByte_wf (cfg : Config) (fsm : Fsm) (k : Scratch) (b : Byte) : (decodeByte fsm k b).wf cfg := by
  cases fsm with
  | waitSync1 =>
    rw [decodeByte]
    split
    next => rfl
    next hb => exact bne_iff_ne.mpr hb
  | waitSync2 =>
    rw [decodeByte]
    split
    next => split <;> rfl
    next hb => exact bne_iff_ne.mpr hb
  | b0 => rfl
  | b1 => rfl
  | b2 => rfl
  | b3 => rfl
  | b4 => rfl

theorem decodeEvent_wf (cfg : Config) (fsm : Fsm) (k : Scratch) (e : Event) : (decodeEvent fsm k e).wf cfg := by
  cases e with
  | rx b => exact decodeByte_wf cfg fsm k b
  | tick => rfl
  | snap => rfl
  | reset => rfl

/-- A table word of 8 bits is delivered as the one byte of its low bits. -/
@[simp] theorem wordEvents_eight (w : ℕ) : wordEvents 8 w = [.rx (BitVec.ofNat 8 w)] := by
  simp [wordEvents, wordBytes]

/-- A byte placed by `withFetchWord` stands before the events to come. -/
theorem withFetchWord_eight_input (s : State) (w : ℕ) :
    (s.withFetchWord 8 w).input = .rx (BitVec.ofNat 8 w) :: s.input := by
  simp [State.withFetchWord]

/-- Settles O9: both clauses are `step_cons`, for the event that stands first in the list. -/
theorem stepServesTheNextEvent : Obligations.StepServesTheNextEvent := by
  refine ⟨fun s e es i hv hs hi => ?_, fun s w hv => ?_⟩
  · subst hi
    exact ⟨decodeEvent_wf s.cfg s.fsm s.scratch e, step_cons hv hs⟩
  · exact step_cons (s := s.withFetchWord 8 w) hv (withFetchWord_eight_input s w)

end Sys2Proof.Machine
end

section
/-!
SUPPORT. The byte decoder and the recogniser of whole frames against the encoder and the opcode table
(R46, R47, R59). A byte goes round in its decoder state; the branches of the byte decoder are the rows of
the table, in the table's order; what the recogniser accepts is `frame7Bytes` with a valid checksum.
-/

namespace Sys2Proof.Machine

/-- The decoder reads back the one byte of a well-formed per-byte operation: the operand's
well-formedness and the checksum condition pick the operation's branch (R47). -/
theorem decodeByte_of_encode {cfg : Config} {i : Instr} {fsm : Fsm} {k : Scratch} (hwf : i.wf cfg)
    (hs : i.inState = some fsm) (hk : i.sumCondition k) : ∃ b, encode i = [b] ∧ decodeByte fsm k b = i := by
  cases i with
  | rxWs1Sync => cases hs; exact ⟨_, rfl, rfl⟩
  | rxWs1Skip b => cases hs; exact ⟨b, rfl, if_neg (bne_iff_ne.mp hwf)⟩
  | rxB0 b => cases hs; exact ⟨b, rfl, rfl⟩
  | rxB1 b => cases hs; exact ⟨b, rfl, rfl⟩
  | rxB2 b => cases hs; exact ⟨b, rfl, rfl⟩
  | rxB3 b => cases hs; exact ⟨b, rfl, rfl⟩
  | rxB4 b => cases hs; exact ⟨b, rfl, rfl⟩
  | rxWs2Commit => cases hs; exact ⟨_, rfl, if_pos hk⟩
  | rxWs2Badsum => cases hs; exact ⟨_, rfl, if_neg (by simpa [Instr.sumCondition] using hk)⟩
  | rxWs2Abort b => cases hs; exact ⟨b, rfl, if_neg (bne_iff_ne.mp hwf)⟩
  | pidCompute | tick | chStep | setPulse | snap | reset | frame7 => cases hs

/-- A byte is the encoding of what it decodes to. -/
@[simp] theorem encode_decodeByte (fsm : Fsm) (k : Scratch) (b : Byte) : encode (decodeByte fsm k b) = [b] := by
  fun_cases decodeByte fsm k b with
  | case1 | case8 | case9 => subst b; rfl
  | case2 | case3 | case4 | case5 | case6 | case7 | case10 => rfl

@[simp] theorem inState_decodeByte (fsm : Fsm) (k : Scratch) (b : Byte) :
    (decodeByte fsm k b).inState = some fsm := by
  fun_cases decodeByte fsm k b <;> rfl

/-- Only commit and bad sum ask for something, and each is decoded where it holds. -/
theorem sumCondition_decodeByte (fsm : Fsm) (k : Scratch) (b : Byte) : (decodeByte fsm k b).sumCondition k := by
  fun_cases decodeByte fsm k b with
  | case8 _ hc => exact hc
  | case9 _ hc => simpa [Instr.sumCondition] using hc
  | _ => rfl

/-- A frame with a valid checksum is recognised, and the bytes after it are left. -/
theorem decodeFrame_frame7Bytes {p0 p1 p2 p3 cs : Byte} (hcs : cs = csum p0 p1 p2 p3) (rest : List Byte) :
    decodeFrame (frame7Bytes p0 p1 p2 p3 cs ++ rest) = .frame (.frame7 p0 p1 p2 p3 cs) rest := by
  simp [frame7Bytes, decodeFrame, hcs]

/-- Settles O13: the round trips of a byte in either direction, and of a whole frame. -/
theorem decodeOfEncodeIsIdentity : Obligations.DecodeOfEncodeIsIdentity := by
  refine ⟨fun _ _ _ _ => decodeByte_of_encode, fun cfg fsm k b => ?_, fun _ _ _ _ _ _ rest hwf => ?_⟩
  · exact ⟨encode_decodeByte fsm k b, decodeByte_wf cfg fsm k b, inState_decodeByte fsm k b,
      sumCondition_decodeByte fsm k b⟩
  · exact decodeFrame_frame7Bytes (beq_iff_eq.mp hwf) rest

/-- Whatever is recognised is a frame with a valid checksum: the other branches of `decodeFrame` reject. -/
theorem eq_frame7Bytes_of_decodeFrame {bs rest : List Byte} {i : Instr} (h : decodeFrame bs = .frame i rest) :
    ∃ p0 p1 p2 p3 cs, i = .frame7 p0 p1 p2 p3 cs ∧ cs = csum p0 p1 p2 p3
      ∧ bs = frame7Bytes p0 p1 p2 p3 cs ++ rest := by
  revert h
  fun_cases decodeFrame bs with
  | case4 sync p0 p1 p2 p3 cs term rest' hsync hterm hcs =>
    rintro ⟨⟩
    rw [not_ne_iff] at hsync hterm hcs
    subst hsync hterm
    exact ⟨p0, p1, p2, p3, cs, rfl, hcs, rfl⟩
  | case1 | case2 | case3 | case5 => nofun

/-- R48's sum modulo 256, on natural numbers. -/
theorem eq_csum_iff {p0 p1 p2 p3 cs : Byte} :
    cs = csum p0 p1 p2 p3 ↔ cs.toNat = (p0.toNat + p1.toNat + p2.toNat + p3.toNat) % 256 := by
  rw [← BitVec.toNat_inj, csum, BitVec.toNat_ofNat]

/-- Settles O14. -/
theorem frameRecogniserIsExact : Obligations.FrameRecogniserIsExact := by
  intro bs rest i
  constructor
  · intro h
    obtain ⟨p0, p1, p2, p3, cs, hi, hcs, hbs⟩ := eq_frame7Bytes_of_decodeFrame h
    exact ⟨p0, p1, p2, p3, cs, hi, eq_csum_iff.mp hcs, hbs⟩
  · rintro ⟨p0, p1, p2, p3, cs, rfl, hcs, rfl⟩
    exact decodeFrame_frame7Bytes (eq_csum_iff.mpr hcs) rest

theorem state_eq_of_holds {r : ByteRow} {fsm : Fsm} {k : Scratch} {b : Byte} (h : r.holds fsm k b) :
    r.state = fsm := by
  simp only [ByteRow.holds, Bool.and_eq_true, beq_iff_eq] at h
  exact h.1.1

/-- The rows of one state stand in ascending priority in the table. -/
theorem byteRows_ascending : byteRows.Pairwise fun r r' => r.state = r'.state → r.priority < r'.priority := by
  decide

/-- So the first row whose match holds is the one of lowest priority number among those. -/
theorem priority_lt_of_find?_byteRows {fsm : Fsm} {k : Scratch} {b : Byte} {r r' : ByteRow}
    (hr : byteRows.find? (·.holds fsm k b) = some r) (hmem : r' ∈ byteRows) (hr' : r'.holds fsm k b) :
    r' = r ∨ r.priority < r'.priority := by
  obtain ⟨hholds, before, after, heq, hbefore⟩ := List.find?_eq_some_iff_append.mp hr
  have hasc := byteRows_ascending
  rw [heq] at hasc hmem
  obtain ⟨-, hafter, -⟩ := List.pairwise_append.mp hasc
  rcases List.mem_append.mp hmem with h | h
  · exact absurd hr' (by simpa using hbefore r' h)
  · rcases List.mem_cons.mp h with h | h
    · exact .inl h
    · have hstate : r.state = r'.state := (state_eq_of_holds hholds).trans (state_eq_of_holds hr').symm
      exact .inr (List.rel_of_pairwise_cons hafter h hstate)

/-- The ten branches of the byte decoder are the ten rows of the table: the first row whose match holds is
the decoded operation's, and performing the operation leads to the row's next state. -/
theorem find?_byteRows_decodeByte {s : State} {fsm : Fsm} (hf : s.fsm = fsm) (k : Scratch) (b : Byte) :
    ∃ r, byteRows.find? (·.holds fsm k b) = some r ∧ (decodeByte fsm k b).mnemonic = r.mnemonic
      ∧ ∃ t, exec (decodeByte fsm k b) s = .next t ∧ t.fsm = r.next := by
  have hmask : b &&& 0xFF#8 = b := BitVec.and_allOnes
  fun_cases decodeByte fsm k b with
  | case1 hb => exact ⟨byteRows[0], by subst hb; rfl, rfl, _, rfl, rfl⟩
  | case2 hb =>
    have hb : b ≠ 0xAA#8 := hb
    exact ⟨byteRows[1], by simp [byteRows, ByteRow.holds, hmask, hb], rfl, _, rfl, hf⟩
  | case3 => exact ⟨byteRows[2], by simp [byteRows, ByteRow.holds], rfl, _, rfl, rfl⟩
  | case4 => exact ⟨byteRows[3], by simp [byteRows, ByteRow.holds], rfl, _, rfl, rfl⟩
  | case5 => exact ⟨byteRows[4], by simp [byteRows, ByteRow.holds], rfl, _, rfl, rfl⟩
  | case6 => exact ⟨byteRows[5], by simp [byteRows, ByteRow.holds], rfl, _, rfl, rfl⟩
  | case7 => exact ⟨byteRows[6], by simp [byteRows, ByteRow.holds], rfl, _, rfl, rfl⟩
  | case8 hb hc =>
    have hb : b = 0x55#8 := hb
    exact ⟨byteRows[7], by simp [byteRows, ByteRow.holds, hb, hc], rfl, _, rfl, rfl⟩
  | case9 hb hc =>
    have hb : b = 0x55#8 := hb
    exact ⟨byteRows[8], by simp [byteRows, ByteRow.holds, hb, hc], rfl, _, rfl, rfl⟩
  | case10 hb =>
    have hb : b ≠ 0x55#8 := hb
    exact ⟨byteRows[9], by simp [byteRows, ByteRow.holds, hmask, hb], rfl, _, rfl, rfl⟩

/-- Settles O7: the row taken is the first whose match holds. -/
theorem decodeFollowsOpcodeTable : Obligations.DecodeFollowsOpcodeTable := by
  intro s b
  obtain ⟨r, hr, hname, hnext⟩ := find?_byteRows_decodeByte (s := s) rfl s.scratch b
  have hholds : r.holds s.fsm s.scratch b := (List.find?_eq_some_iff_append.mp hr).1
  exact ⟨r, List.mem_of_find?_eq_some hr, hholds, fun _ => priority_lt_of_find?_byteRows hr, hname, hnext⟩

/-- Settles O8, by evaluating the decoder on the written-out bytes. -/
theorem writtenOutBytesDecode : Obligations.WrittenOutBytesDecode := by
  unfold Obligations.WrittenOutBytesDecode
  decide

end Sys2Proof.Machine
end

section
/-!
SUPPORT. The receiver's arithmetic: the byte assembly and the sign-magnitude code of a frame's words (R49,
R57, R71), and the two ends of the commit's floating-point sum (R73).
-/

namespace Sys2Proof.Machine

theorem word16_lt (hi lo : Byte) : word16 hi lo < 65536 := by
  have := hi.isLt
  have := lo.isLt
  unfold word16
  omega

@[simp] theorem hiByte_word16 (hi lo : Byte) : hiByte (word16 hi lo) = hi := by
  have := lo.isLt
  have hdiv : word16 hi lo / 256 = hi.toNat := by unfold word16; omega
  rw [hiByte, hdiv, BitVec.ofNat_toNat, BitVec.setWidth_eq]

@[simp] theorem loByte_word16 (hi lo : Byte) : loByte (word16 hi lo) = lo := by
  have hlo := lo.isLt
  apply BitVec.eq_of_toNat_eq
  rw [loByte, BitVec.toNat_ofNat, word16]
  omega

/-- A word is assembled from its bytes. -/
theorem word16_hiByte_loByte {v : ℕ} (hv : v < 65536) : word16 (hiByte v) (loByte v) = v := by
  rw [word16, hiByte, loByte, BitVec.toNat_ofNat, BitVec.toNat_ofNat]
  omega

theorem sm16_range {raw : ℕ} (h : raw < 65536) : -32767 ≤ sm16 raw ∧ sm16 raw ≤ 32767 := by
  unfold sm16
  split <;> omega

/-- The two zeros of the code (R50). -/
theorem sm16_eq_zero_iff (raw : ℕ) : sm16 raw = 0 ↔ raw = 0x0000 ∨ raw = 0x8000 := by
  unfold sm16
  split <;> omega

section
variable {v : ℤ} (hlo : -32767 ≤ v) (hhi : v ≤ 32767)
include hlo hhi

theorem enc16_lt : enc16 v < 65536 := by
  unfold enc16
  split <;> omega

theorem enc16_ne_minus_zero : enc16 v ≠ 0x8000 := by
  unfold enc16
  split <;> omega

theorem sm16_enc16 : sm16 (enc16 v) = v := by
  unfold enc16 sm16
  split <;> split <;> omega

/-- The receiver reads back the displacement that the sender encoded (R72). -/
theorem sm16_word16_enc16 : sm16 (word16 (hiByte (enc16 v)) (loByte (enc16 v))) = v := by
  rw [word16_hiByte_loByte (enc16_lt hlo hhi), sm16_enc16 hlo hhi]
end

/-- Settles O15. -/
theorem signMagnitudeRoundTrip : Obligations.SignMagnitudeRoundTrip :=
  ⟨fun _ hlo hhi => ⟨sm16_enc16 hlo hhi, enc16_lt hlo hhi, enc16_ne_minus_zero hlo hhi⟩,
    fun raw h => ⟨(sm16_range h).1, (sm16_range h).2, sm16_eq_zero_iff raw⟩,
    fun hi lo => ⟨word16_lt hi lo, hiByte_word16 hi lo, loByte_word16 hi lo⟩⟩

/-- R49 on the bytes: bit 7 of the high byte is the sign, and the other fifteen bits are the magnitude. -/
theorem sm16_word16 (hi lo : Byte) : sm16 (word16 hi lo) =
    if hi.getLsbD 7 then -(256 * (hi.toNat % 128 : ℕ) + lo.toNat : ℤ)
    else 256 * (hi.toNat % 128 : ℕ) + lo.toNat := by
  have hhi := hi.isLt
  have hlo := lo.isLt
  have hsign : hi.getLsbD 7 = decide (128 ≤ hi.toNat) := BitVec.msb_eq_decide hi
  rw [hsign]
  simp only [sm16, word16, decide_eq_true_eq]
  split_ifs <;> omega

theorem abs_sm16_le {raw : ℕ} (h : raw < 65536) : |sm16 raw| ≤ 32767 := abs_le.mpr (sm16_range h)

theorem abs_scratchDx_le (k : Scratch) : |scratchDx k| ≤ 32767 := abs_sm16_le (word16_lt _ _)

theorem abs_scratchDy_le (k : Scratch) : |scratchDy k| ≤ 32767 := abs_sm16_le (word16_lt _ _)

/-- A delta is a value of every format, so the sum is rounded once. -/
theorem fadd_delta (f : NumFormat) (q : ℚ) (a : Bool) {d : ℤ} (hd : |d| ≤ 32767) :
    ∃ zs, fadd f (.fin q a) (ofInt f d) = pack f (q + d) zs := by
  rw [ofInt_eq f (hd.trans (by norm_num))]
  exact ⟨_, by rw [fadd, addQ_eq]⟩

/-- While the accumulator is a small integer the sum is exact (R73, R81). -/
theorem fadd_delta_exact (f : NumFormat) {x d : ℤ} (a : Bool) (hx : |x| < 2 ^ 24 - 32767) (hd : |d| ≤ 32767) :
    ∃ m, fadd f (.fin x a) (ofInt f d) = .fin (x + d : ℤ) m := by
  obtain ⟨zs, h⟩ := fadd_delta f x a hd
  have hsum : |x + d| ≤ 2 ^ 24 := by
    have := abs_add_le x d
    omega
  rw [h, ← Int.cast_add, pack_value (isFiniteValue_int f hsum)]
  exact ⟨_, rfl⟩

/-- Settles O50. -/
theorem commitIsExactInSmallRange : Obligations.CommitIsExactInSmallRange := by
  intro s x y a b hacc hx hy
  obtain ⟨m, hm⟩ := fadd_delta_exact s.cfg.format a hx (abs_scratchDx_le s.scratch)
  obtain ⟨n, hn⟩ := fadd_delta_exact s.cfg.format b hy (abs_scratchDy_le s.scratch)
  refine ⟨m, n, _, rfl, ?_⟩
  rw [spAdd_acc, hacc, hm, hn]

/-- The values of binary32 from `2^39` on are spaced by `2^16` or more. -/
theorem binary32_multiple {q : ℚ} (hq : ValueUnbounded .binary32 q) (h : 2 ^ 39 ≤ |q|) :
    ∃ k : ℤ, q = k * 2 ^ 16 := by
  obtain ⟨⟨⟩⟩ | ⟨m, e, hm, -, rfl⟩ := hq
  have hm' : |(m : ℚ)| < 2 ^ 24 := by exact_mod_cast hm
  have he : 16 ≤ e := by
    by_contra! hlt
    have hpow : (2 : ℚ) ^ e ≤ 2 ^ 15 := by
      rw [← zpow_natCast]
      exact zpow_le_zpow_right₀ (by norm_num) (by omega)
    have hsmall : |(m : ℚ)| * 2 ^ e < 2 ^ 24 * 2 ^ 15 := mul_lt_mul hm' hpow (by positivity) (by norm_num)
    rw [abs_mul, abs_of_pos (a := (2 : ℚ) ^ e) (by positivity)] at h
    linarith
  obtain ⟨j, rfl⟩ := Int.le.dest he
  refine ⟨m * 2 ^ j, ?_⟩
  rw [zpow_add₀ (by norm_num), zpow_natCast]
  push_cast
  ring

/-- Multiples of `2^16` that are closer to each other than `2^16` are equal. -/
theorem eq_of_multiples {q r : ℚ} (hq : ∃ k : ℤ, q = k * 2 ^ 16) (hr : ∃ k : ℤ, r = k * 2 ^ 16)
    (h : |r - q| < 2 ^ 16) : r = q := by
  obtain ⟨k, rfl⟩ := hq
  obtain ⟨l, rfl⟩ := hr
  rw [← sub_mul, abs_mul, abs_of_pos (a := (2 : ℚ) ^ 16) (by norm_num)] at h
  have hlt : |l - k| < 1 := by
    have : |(l : ℚ) - k| < 1 := by linarith
    exact_mod_cast this
  rw [sub_eq_zero.mp (Int.abs_lt_one_iff.mp hlt)]

/-- The next value after `2^39` is `2^16` away. -/
theorem large_of_multiple {q : ℚ} (hq : ∃ k : ℤ, q = k * 2 ^ 16) (h : 2 ^ 39 < |q|) :
    2 ^ 39 + 2 ^ 16 ≤ |q| := by
  obtain ⟨k, rfl⟩ := hq
  rw [abs_mul, abs_of_pos (a := (2 : ℚ) ^ 16) (by norm_num), ← Int.cast_abs] at h ⊢
  have hk : 2 ^ 23 + 1 ≤ |k| := by
    have : (2 ^ 23 : ℚ) < (|k| : ℤ) := by linarith
    exact_mod_cast this
  have hk' : (2 ^ 23 + 1 : ℚ) ≤ (|k| : ℤ) := by exact_mod_cast hk
  linarith

/-- Above `2^39` a delta is less than half the distance to the next value, on either side. -/
theorem roundUnbounded_absorbs {q : ℚ} (hq : ValueUnbounded .binary32 q) (hlarge : 2 ^ 39 < |q|) {d : ℤ}
    (hd : |d| ≤ 32767) : roundUnbounded .binary32 (q + d) = q := by
  have hmult := binary32_multiple hq hlarge.le
  have hfar := large_of_multiple hmult hlarge
  have hnear := roundUnbounded_nearest (f := .binary32) nofun (q + d) hq
  have hv := valueUnbounded_roundUnbounded .binary32 (q + d)
  set r := roundUnbounded .binary32 (q + d)
  have hd' : |(d : ℚ)| ≤ 32767 := by exact_mod_cast hd
  have hclose : |r - q| ≤ 65534 := by
    calc |r - q| ≤ |r - (q + d)| + |q + d - q| := abs_sub_le r (q + d) q
      _ ≤ |q - (q + d)| + |q + d - q| := by gcongr
      _ = |(d : ℚ)| + |(d : ℚ)| := by rw [abs_sub_comm q, add_sub_cancel_left]
      _ ≤ 65534 := by linarith
  have hr : 2 ^ 39 ≤ |r| := by
    have := abs_sub_abs_le_abs_sub q r
    rw [abs_sub_comm q] at this
    linarith
  exact eq_of_multiples hmult (binary32_multiple hv hr) (by linarith)

/-- Settles O51. At `2^39` itself the next value toward zero is `2^15` away. -/
theorem largeAccumulatorAbsorbsDelta : Obligations.LargeAccumulatorAbsorbsDelta := by
  refine ⟨fun q a d hq hlarge hlo hhi => ?_, fun a => ⟨?_, ?_⟩⟩
  · have hd : |d| ≤ 32767 := abs_le.mpr ⟨hlo, hhi⟩
    obtain ⟨zs, h⟩ := fadd_delta .binary32 q a hd
    obtain ⟨hval, hrange⟩ := (isFiniteValue_iff .binary32 q).mp hq
    have hround : roundQ .binary32 (q + d) = some q := by
      rw [roundQ_binary (f := .binary32) nofun, roundUnbounded_absorbs hval hlarge hd,
        if_pos (hrange.resolve_left nofun)]
    exact ⟨_, by rw [h, pack, hround]⟩
  · rw [isFiniteValue_iff]
    exact ⟨.inr ⟨1, 39, by decide, by decide, by norm_num⟩, .inr (by norm_num [overflowExponent])⟩
  · obtain ⟨zs, h⟩ := fadd_delta .binary32 (2 ^ 39) a (d := -32767) (by decide)
    have hround : roundQ .binary32 (2 ^ 39 + (-32767 : ℤ)) = some (2 ^ 39 - 32768) := by
      rw [show (2 ^ 39 + (-32767 : ℤ) : ℚ) = 549755781121 by norm_num,
        show (2 ^ 39 - 32768 : ℚ) = 549755781120 by norm_num]
      decide
    exact ⟨_, by rw [h, pack, hround]⟩

end Sys2Proof.Machine
end

section
/-!
SUPPORT. What a step does with one byte (R60 to R69): it performs the decoded operation on the state with the
event consumed, and the operation touches the receiver's own registers only (R78).
-/

namespace Sys2Proof.Machine

/-- A step on a byte performs the operation it decodes to in the state the decoder is in. -/
theorem step_rx_decode {s : State} {f : Fsm} {b : Byte} {es : List Event} {i : Instr} (hv : s.cfg.valid)
    (hs : s.input = .rx b :: es) (hf : s.fsm = f) (hi : decodeByte f s.scratch b = i) :
    step s = exec i (served s es) := by
  rw [step_cons hv hs, hf, decodeEvent, hi]

section
variable {k : Scratch}

theorem decodeByte_skip {b : Byte} (hb : b ≠ Config.sync) : decodeByte .waitSync1 k b = .rxWs1Skip b := if_neg hb

theorem decodeByte_abort {b : Byte} (hb : b ≠ Config.term) : decodeByte .waitSync2 k b = .rxWs2Abort b := if_neg hb

theorem decodeByte_commit (hk : checksumValid k) : decodeByte .waitSync2 k Config.term = .rxWs2Commit := by
  simp [decodeByte, hk]

theorem decodeByte_badsum (hk : ¬ checksumValid k) : decodeByte .waitSync2 k Config.term = .rxWs2Badsum := by
  simp [decodeByte, hk]

/-- R48's condition, on natural numbers. -/
theorem checksumValid_iff : checksumValid k ↔
    k.s4.toNat = (k.s0.toNat + k.s1.toNat + k.s2.toNat + k.s3.toNat) % 256 := by
  rw [checksumValid, beq_iff_eq, eq_csum_iff]
end

/-- Settles O1. -/
theorem syncByteOpensFrame : Obligations.SyncByteOpensFrame :=
  fun _ => ⟨rfl, fun _ hv hs hf => step_rx_decode hv hs hf rfl, fun _ hv hs hf => step_rx_decode hv hs hf rfl⟩

/-- Settles O2. -/
theorem otherByteIsSkipped : Obligations.OtherByteIsSkipped :=
  fun _ _ => ⟨rfl, fun _ hb hv hs hf => step_rx_decode hv hs hf (decodeByte_skip hb)⟩

/-- Settles O3. -/
theorem payloadBytesAreStored : Obligations.PayloadBytesAreStored := by
  refine fun s b => ⟨⟨rfl, rfl, rfl, rfl, rfl⟩, fun es hv hs => ?_⟩
  refine ⟨?_, ?_, ?_, ?_, ?_⟩ <;> exact fun hf => step_rx_decode hv hs hf rfl

/-- Settles O4. -/
theorem commitAddsBothDeltas : Obligations.CommitAddsBothDeltas :=
  fun s => ⟨scratchDx s.scratch, scratchDy s.scratch, sm16_word16 _ _, sm16_word16 _ _, rfl,
    fun _ hv hs hf hsum => step_rx_decode hv hs hf (decodeByte_commit (checksumValid_iff.mpr hsum))⟩

/-- Settles O5. -/
theorem badChecksumDropsFrame : Obligations.BadChecksumDropsFrame :=
  fun _ => ⟨rfl, fun _ hv hs hf hsum => step_rx_decode hv hs hf (decodeByte_badsum (mt checksumValid_iff.mp hsum))⟩

/-- Settles O6. -/
theorem badTerminatorDropsFrame : Obligations.BadTerminatorDropsFrame :=
  fun _ _ => ⟨rfl, fun _ hb hv hs hf => step_rx_decode hv hs hf (decodeByte_abort hb)⟩

/-- Settles O11. -/
theorem noEventNoChange : Obligations.NoEventNoChange := by
  intro s hv hs
  rw [step_eq, if_pos hv, hs]

/-- The accumulators change by a commit only (R78). -/
theorem accAfterByte_of_no_commit {b : Byte} {s : State} (h : decodeByte s.fsm s.scratch b ≠ .rxWs2Commit) :
    accAfterByte b s = s.acc := by
  refine if_neg ?_
  rintro ⟨hf, rfl, hk⟩
  exact h (hf ▸ decodeByte_commit hk)

/-- Settles O21. -/
theorem receiverTouchesOnlyItsOwn : Obligations.ReceiverTouchesOnlyItsOwn := by
  intro s t b es hs h
  obtain ⟨_, _, _, hr⟩ := execRx_next b (served s es)
  rw [execRx_eq] at hr
  cases hr.symm.trans (exec_of_step hs h)
  exact ⟨rfl, rfl, rfl, rfl, rfl, accAfterByte_of_no_commit (s := served s es)⟩

end Sys2Proof.Machine
end

section
/-!
SUPPORT. The decoder along a byte string (R74 to R76). A byte maps the receiver's registers to the
receiver's registers; a run's bytes are folded over them, whatever else the run serves between them.
-/

namespace Sys2Proof.Machine

/-- The registers that the Frame Receiver writes (R78). -/
structure Receiver where
  fsm : Fsm
  scratch : Scratch
  acc : Setpoints

def State.receiver (s : State) : Receiver := ⟨s.fsm, s.scratch, s.acc⟩

def State.setReceiver (r : Receiver) (s : State) : State := s.withReceiver r.fsm r.scratch r.acc

/-- A pair of setpoint values with two deltas added (R37). -/
def addDeltas (f : NumFormat) (p : Setpoints) (dx dy : ℤ) : Setpoints :=
  ⟨fadd f p.x (ofInt f dx), fadd f p.y (ofInt f dy)⟩

/-- The registers after one byte (R47, R60 to R69). -/
def Receiver.byte (f : NumFormat) (r : Receiver) (b : Byte) : Receiver :=
  match r.fsm with
  | .waitSync1 => { r with fsm := if b = Config.sync then .b0 else .waitSync1 }
  | .b0 => { r with fsm := .b1, scratch := { r.scratch with s0 := b } }
  | .b1 => { r with fsm := .b2, scratch := { r.scratch with s1 := b } }
  | .b2 => { r with fsm := .b3, scratch := { r.scratch with s2 := b } }
  | .b3 => { r with fsm := .b4, scratch := { r.scratch with s3 := b } }
  | .b4 => { r with fsm := .waitSync2, scratch := { r.scratch with s4 := b } }
  | .waitSync2 =>
    { r with
      fsm := .waitSync1
      acc := if b = Config.term ∧ checksumValid r.scratch then
          addDeltas f r.acc (scratchDx r.scratch) (scratchDy r.scratch)
        else r.acc }

/-- The registers after a byte string. -/
def Receiver.bytes (f : NumFormat) (r : Receiver) (bs : List Byte) : Receiver := bs.foldl (Receiver.byte f) r

section
variable (f : NumFormat) (r : Receiver)
@[simp] theorem bytes_nil : r.bytes f [] = r := rfl
@[simp] theorem bytes_cons (b : Byte) (bs : List Byte) : r.bytes f (b :: bs) = (r.byte f b).bytes f bs := rfl
@[simp] theorem bytes_append (bs cs : List Byte) : r.bytes f (bs ++ cs) = (r.bytes f bs).bytes f cs :=
  List.foldl_append
end

/-- Serving a byte is `Receiver.byte` on the receiver's registers; beside them only labels change. -/
theorem execRx_receiver (b : Byte) (s : State) : ∃ ls, execRx b s =
    .next { s.setReceiver (s.receiver.byte s.cfg.format b) with labels := ls } := by
  obtain ⟨⟨f, k, a, _⟩, _⟩ := s
  cases f with
  | waitSync1 =>
    by_cases hb : b = Config.sync <;> simp only [execRx, State.receiver, Receiver.byte, hb, if_true, if_false] <;>
      exact ⟨_, rfl⟩
  | waitSync2 =>
    by_cases hb : b = Config.term
    · cases hk : checksumValid k <;> simp only [execRx, State.receiver, Receiver.byte, hb, hk] <;> exact ⟨_, rfl⟩
    · simp only [execRx, State.receiver, Receiver.byte, hb, if_false, false_and]
      exact ⟨_, rfl⟩
  | b0 | b1 | b2 | b3 | b4 => exact ⟨_, rfl⟩

/-- Bytes received in sequence fold `Receiver.byte` over the receiver's registers. -/
theorem execRxAll_receiver (bs : List Byte) (s : State) : ∃ ls, execRxAll bs s =
    .next { s.setReceiver (s.receiver.bytes s.cfg.format bs) with labels := ls } := by
  induction bs generalizing s with
  | nil => exact ⟨s.labels, rfl⟩
  | cons b bs ih =>
    obtain ⟨ls, hb⟩ := execRx_receiver b s
    rw [execRxAll, hb]
    exact ih _

/-- Bytes delivered as events do the same; beside the receiver's registers only the machine's own record of the
trace, the outputs and the labels changes. -/
theorem deliver_bytes {s : State} (hv : s.cfg.valid) (bs : List Byte) : ∃ os ls, deliver (bs.map .rx) s =
    .next { s.setReceiver (s.receiver.bytes s.cfg.format bs) with input := [], out := os, labels := ls } := by
  induction bs generalizing s with
  | nil => exact ⟨s.out, s.labels, rfl⟩
  | cons b bs ih =>
    obtain ⟨ls, hb⟩ := execRx_receiver b (served s [])
    rw [List.map_cons, deliver_rx hv, hb]
    exact ih (s := { (served s []).setReceiver _ with labels := ls }) hv

theorem deliver_bytes_receiver {s : State} (hv : s.cfg.valid) (bs : List Byte) :
    ∃ t, deliver (bs.map .rx) s = .next t ∧ t.receiver = s.receiver.bytes s.cfg.format bs := by
  obtain ⟨_, _, h⟩ := deliver_bytes hv bs
  exact ⟨_, h, rfl⟩

/-- An event other than `RESET` changes the receiver's registers by its byte, where it has one (R74, R101). -/
theorem serve_receiver {e : Event} {s t : State} (he : e ≠ .reset) (h : serve e s = .next t) :
    t.receiver = s.receiver.bytes s.cfg.format (rxBytes [e]) ∧ t.cfg = s.cfg := by
  unfold serve at h
  split at h
  next =>
    cases e with
    | rx b =>
      obtain ⟨_, hb⟩ := execRx_receiver b (served s [])
      rw [execRx_eq] at hb
      cases hb.symm.trans h
      exact ⟨rfl, rfl⟩
    | tick =>
      obtain ⟨_, _, _, _, rfl, -⟩ := execTick_frame h
      exact ⟨rfl, rfl⟩
    | snap => cases h; exact ⟨rfl, rfl⟩
    | reset => exact absurd rfl he
  next => cases h

theorem rxBytes_cons (e : Event) (es : List Event) : rxBytes (e :: es) = rxBytes [e] ++ rxBytes es := by
  cases e <;> rfl

/-- The receiver's registers after a run depend on its bytes only, whatever `TICK` and `SNAP` events stand
between them (R74). -/
theorem deliver_receiver {es : List Event} {s t : State} (hr : .reset ∉ es) (h : deliver es s = .next t) :
    t.receiver = s.receiver.bytes s.cfg.format (rxBytes es) ∧ t.cfg = s.cfg := by
  induction es generalizing s with
  | nil => cases h; exact ⟨rfl, rfl⟩
  | cons e es ih =>
    rw [List.mem_cons, not_or] at hr
    rw [deliver_cons_serve, andThen_eq_next] at h
    obtain ⟨u, hu, ht⟩ := h
    obtain ⟨hrecv, hcfg⟩ := serve_receiver (Ne.symm hr.1) hu
    obtain ⟨hrecv', hcfg'⟩ := ih hr.2 ht
    rw [rxBytes_cons, bytes_append, ← hrecv, ← hcfg]
    exact ⟨hrecv', hcfg'⟩

theorem receiver_of_fsm {s : State} {f : Fsm} (hf : s.fsm = f) : s.receiver = ⟨f, s.scratch, s.acc⟩ := by
  rw [State.receiver, hf]

end Sys2Proof.Machine
end

section
/-!
SUPPORT. A whole frame (R72, R74): a sync byte opens it, five bytes are stored, and the seventh commits it
where the terminator and the checksum are right.
-/

namespace Sys2Proof.Machine

section
variable (f : NumFormat) (k : Scratch) (a : Setpoints) (p0 p1 p2 p3 : Byte)

/-- Seven bytes that a sync byte opens, from `WaitSync1`. -/
theorem bytes_frame (cs tm : Byte) :
    Receiver.bytes f ⟨.waitSync1, k, a⟩ [Config.sync, p0, p1, p2, p3, cs, tm] =
      ⟨.waitSync1, ⟨p0, p1, p2, p3, cs⟩,
        if tm = Config.term ∧ cs = csum p0 p1 p2 p3 then
          addDeltas f a (sm16 (word16 p0 p1)) (sm16 (word16 p2 p3))
        else a⟩ := by
  simp [Receiver.byte, checksumValid, scratchDx, scratchDy]

theorem bytes_validFrame : Receiver.bytes f ⟨.waitSync1, k, a⟩ (frame7Bytes p0 p1 p2 p3 (csum p0 p1 p2 p3)) =
    ⟨.waitSync1, ⟨p0, p1, p2, p3, csum p0 p1 p2 p3⟩,
      addDeltas f a (sm16 (word16 p0 p1)) (sm16 (word16 p2 p3))⟩ := by
  rw [frame7Bytes, bytes_frame, if_pos ⟨rfl, rfl⟩]

/-- The bytes of a canonical frame add its displacement (R72). -/
theorem bytes_frameBytes {dx dy : ℤ} (hdx : -32767 ≤ dx) (hdx' : dx ≤ 32767) (hdy : -32767 ≤ dy)
    (hdy' : dy ≤ 32767) :
    ∃ k', Receiver.bytes f ⟨.waitSync1, k, a⟩ (frameBytes dx dy) = ⟨.waitSync1, k', addDeltas f a dx dy⟩ := by
  rw [frameBytes, bytes_validFrame, sm16_word16_enc16 hdx hdx', sm16_word16_enc16 hdy hdy']
  exact ⟨_, rfl⟩
end

/-- Settles O17. -/
theorem wholeFrameEffectUnderInterleaving : Obligations.WholeFrameEffectUnderInterleaving := by
  intro s t es p0 p1 p2 p3 hf hr hbytes h
  obtain ⟨hrecv, hcfg⟩ := deliver_receiver hr h
  rw [hbytes, receiver_of_fsm hf, bytes_validFrame] at hrecv
  injection hrecv with hfsm hscratch hacc
  exact ⟨hfsm, hscratch, hcfg, hacc⟩

/-- The seventh byte of a frame with a valid checksum notes nothing: the next state is given whole. -/
theorem execRx_commit {s : State} (hf : s.fsm = .waitSync2) (hk : checksumValid s.scratch) :
    execRx Config.term s = .next { s with
      fsm := .waitSync1, acc := addDeltas s.cfg.format s.acc (scratchDx s.scratch) (scratchDy s.scratch) } := by
  rw [execRx_eq, hf, decodeByte_commit hk]
  rfl

theorem checksumValid_csum (p0 p1 p2 p3 : Byte) : checksumValid ⟨p0, p1, p2, p3, csum p0 p1 p2 p3⟩ :=
  beq_self_eq_true _

section
variable {s : State} (hf : s.fsm = .waitSync1) (p0 p1 p2 p3 : Byte)
include hf

/-- The six bytes of a frame before its terminator note nothing either. -/
theorem execRxAll_frameHead (cs : Byte) (bs : List Byte) :
    execRxAll (Config.sync :: p0 :: p1 :: p2 :: p3 :: cs :: bs) s =
      execRxAll bs { s with fsm := .waitSync2, scratch := ⟨p0, p1, p2, p3, cs⟩ } := by
  obtain ⟨⟨_, _, _, _⟩, _⟩ := s
  cases hf
  rfl

/-- A frame with a valid checksum, received in sequence from `WaitSync1`, is one commit. -/
theorem execRxAll_validFrame : execRxAll (frame7Bytes p0 p1 p2 p3 (csum p0 p1 p2 p3)) s = .next { s with
    scratch := ⟨p0, p1, p2, p3, csum p0 p1 p2 p3⟩
    acc := addDeltas s.cfg.format s.acc (sm16 (word16 p0 p1)) (sm16 (word16 p2 p3)) } := by
  rw [frame7Bytes, execRxAll_frameHead hf, execRxAll, execRx_commit rfl (checksumValid_csum p0 p1 p2 p3), hf]
  rfl

/-- Delivered as events it is one commit, and nothing stands recorded after it. -/
theorem deliver_validFrame (hv : s.cfg.valid) :
    deliver ((frame7Bytes p0 p1 p2 p3 (csum p0 p1 p2 p3)).map .rx) s = .next { s with
      scratch := ⟨p0, p1, p2, p3, csum p0 p1 p2 p3⟩
      acc := addDeltas s.cfg.format s.acc (sm16 (word16 p0 p1)) (sm16 (word16 p2 p3))
      input := [], out := [], labels := [] } := by
  obtain ⟨os, ls, h⟩ := deliver_bytes hv [Config.sync, p0, p1, p2, p3, csum p0 p1 p2 p3]
  have hsplit : (frame7Bytes p0 p1 p2 p3 (csum p0 p1 p2 p3)).map Event.rx =
      [Config.sync, p0, p1, p2, p3, csum p0 p1 p2 p3].map Event.rx ++ [.rx Config.term] := rfl
  rw [receiver_of_fsm hf] at h
  rw [hsplit, deliver_append, h, andThen_next, deliver_rx, execRx_commit rfl (checksumValid_csum p0 p1 p2 p3)]
  · rw [hf]
    rfl
  · exact hv
end

/-- Settles O16. -/
theorem canonicalFrameCommitsItsDeltas : Obligations.CanonicalFrameCommitsItsDeltas := by
  intro s dx dy hv hf hdx hdx' hdy hdy'
  have h := deliver_validFrame hf (hiByte (enc16 dx)) (loByte (enc16 dx)) (hiByte (enc16 dy)) (loByte (enc16 dy)) hv
  rw [sm16_word16_enc16 hdx hdx', sm16_word16_enc16 hdy hdy'] at h
  exact ⟨sm16_enc16 hdx hdx', sm16_enc16 hdy hdy', _, h⟩

/-- Settles O18. -/
theorem wholeFrameCommitsOnce : Obligations.WholeFrameCommitsOnce := by
  intro s p0 p1 p2 p3 cs
  refine ⟨?_, ?_⟩
  · obtain ⟨_, h⟩ := execRxAll_receiver (frame7Bytes p0 p1 p2 p3 cs) s
    exact ⟨_, h, rfl, rfl, rfl, rfl⟩
  · rintro hf rfl
    exact execRxAll_validFrame hf p0 p1 p2 p3

end Sys2Proof.Machine
end

section
/-!
SUPPORT. The way back to `WaitSync1` (R75), and what one damaged byte does to a frame (R76).
-/

namespace Sys2Proof.Machine

theorem bytesToSync_eq_zero_iff (f : Fsm) : bytesToSync f = 0 ↔ f = .waitSync1 := by
  cases f <;> simp [bytesToSync]

theorem bytesToSync_le (f : Fsm) : bytesToSync f ≤ 6 := by
  cases f <;> decide

/-- Each byte of a frame in progress brings the decoder one byte nearer to `WaitSync1`. -/
theorem bytesToSync_byte (f : NumFormat) {r : Receiver} (hr : 0 < bytesToSync r.fsm) (b : Byte) :
    bytesToSync (r.byte f b).fsm = bytesToSync r.fsm - 1 := by
  obtain ⟨fsm, _, _⟩ := r
  cases fsm with
  | waitSync1 => exact absurd hr (lt_irrefl 0)
  | b0 | b1 | b2 | b3 | b4 | waitSync2 => rfl

theorem bytesToSync_bytes (f : NumFormat) {r : Receiver} {bs : List Byte} (h : bs.length ≤ bytesToSync r.fsm) :
    bytesToSync (r.bytes f bs).fsm = bytesToSync r.fsm - bs.length := by
  induction bs generalizing r with
  | nil => rfl
  | cons b bs ih =>
    rw [List.length_cons] at h ⊢
    have hb := bytesToSync_byte f (r := r) (by omega) b
    rw [bytes_cons, ih (by omega)]
    omega

/-- Settles O19. -/
theorem boundedReturnToSync : Obligations.BoundedReturnToSync := by
  refine ⟨fun s bs hv hlen => ⟨bytesToSync_le _, ?_⟩, fun s bs hv hf hlen => ?_⟩
  · obtain ⟨t, ht, hrecv⟩ := deliver_bytes_receiver hv bs
    have hsync := bytesToSync_bytes s.cfg.format (r := s.receiver) hlen.le
    rw [← hrecv, hlen] at hsync
    exact ⟨t, ht, (bytesToSync_eq_zero_iff t.fsm).mp (hsync.trans (Nat.sub_self _))⟩
  · obtain ⟨t, ht, hrecv⟩ := deliver_bytes_receiver hv (Config.sync :: bs)
    rw [receiver_of_fsm hf, bytes_cons] at hrecv
    have hsync : bytesToSync t.fsm = 6 - bs.length :=
      (congrArg (bytesToSync ·.fsm) hrecv).trans (bytesToSync_bytes _ hlen)
    refine ⟨t, ht, ?_⟩
    rw [← bytesToSync_eq_zero_iff, hsync]
    omega

/-- In `WaitSync1` bytes other than the sync byte change nothing (R61). -/
theorem bytes_skipped (f : NumFormat) (k : Scratch) (a : Setpoints) {bs : List Byte} (h : Config.sync ∉ bs) :
    Receiver.bytes f ⟨.waitSync1, k, a⟩ bs = ⟨.waitSync1, k, a⟩ := by
  induction bs with
  | nil => rfl
  | cons b bs ih =>
    rw [List.mem_cons, not_or] at h
    have hb : Receiver.byte f ⟨.waitSync1, k, a⟩ b = ⟨.waitSync1, k, a⟩ := by
      simp [Receiver.byte, Ne.symm h.1]
    rw [bytes_cons, hb, ih h.2]

/-- The checksum is a sum of bytes, so it changes when one of them alone does. -/
theorem csum_eq_add (p0 p1 p2 p3 : Byte) : csum p0 p1 p2 p3 = p0 + p1 + p2 + p3 := by
  apply BitVec.eq_of_toNat_eq
  simp [csum, BitVec.toNat_add]

section
variable (f : NumFormat) (k : Scratch) (a : Setpoints) {p0 p1 p2 p3 b : Byte}

/-- With the sync byte damaged, and no other sync byte before the terminator, the whole frame is skipped. -/
theorem bytes_syncDamaged (hb : b ≠ Config.sync) {cs : Byte}
    (h : ∀ j, 1 ≤ j → j ≤ 5 → (frame7Bytes p0 p1 p2 p3 cs)[j]? ≠ some Config.sync) :
    Receiver.bytes f ⟨.waitSync1, k, a⟩ ((frame7Bytes p0 p1 p2 p3 cs).set 0 b) = ⟨.waitSync1, k, a⟩ := by
  refine bytes_skipped f k a ?_
  have hpayload : _ ∧ _ ∧ _ ∧ _ ∧ _ := ⟨h 1, h 2, h 3, h 4, h 5⟩
  simpa [frame7Bytes, eq_comm, hb, show Config.sync ≠ Config.term by decide] using hpayload

/-- With a later byte damaged the frame is received to its end, where the terminator or the checksum is wrong. -/
theorem bytes_bodyDamaged {j : ℕ} (h0 : 0 < j) (hj : j < 7)
    (hb : (frame7Bytes p0 p1 p2 p3 (csum p0 p1 p2 p3))[j]? ≠ some b) :
    ∃ k', Receiver.bytes f ⟨.waitSync1, k, a⟩ ((frame7Bytes p0 p1 p2 p3 (csum p0 p1 p2 p3)).set j b) =
      ⟨.waitSync1, k', a⟩ := by
  interval_cases j <;> refine ⟨_, (bytes_frame ..).trans (congrArg _ (if_neg ?_))⟩ <;>
    simpa [frame7Bytes, csum_eq_add, eq_comm] using hb

/-- A canonical frame with one byte damaged commits nothing, under R76's proviso for the sync byte. -/
theorem bytes_damagedFrame {fx fy : ℤ} {j : ℕ} (hj : j < 7) (hb : (frameBytes fx fy)[j]? ≠ some b)
    (h0 : j = 0 → ∀ i, 1 ≤ i → i ≤ 5 → (frameBytes fx fy)[i]? ≠ some Config.sync) :
    ∃ k', Receiver.bytes f ⟨.waitSync1, k, a⟩ ((frameBytes fx fy).set j b) = ⟨.waitSync1, k', a⟩ := by
  rcases Nat.eq_zero_or_pos j with rfl | hpos
  · have hsync : b ≠ Config.sync := fun h => hb (congrArg some h.symm)
    exact ⟨k, bytes_syncDamaged f k a hsync (h0 rfl)⟩
  · exact bytes_bodyDamaged f k a hpos hj hb
end

/-- A damaged frame and then a good one: the good one commits. -/
theorem deliver_damaged_then_good {s : State} (hv : s.cfg.valid) {ds : List Byte} {k' : Scratch}
    (hds : s.receiver.bytes s.cfg.format ds = ⟨.waitSync1, k', s.acc⟩) {gx gy : ℤ} (hgx : -32767 ≤ gx)
    (hgx' : gx ≤ 32767) (hgy : -32767 ≤ gy) (hgy' : gy ≤ 32767) :
    ∃ u, deliver ((ds ++ frameBytes gx gy).map .rx) s = .next u ∧ u.fsm = .waitSync1 ∧
      u.acc = addDeltas s.cfg.format s.acc gx gy := by
  obtain ⟨u, hu, hrecv⟩ := deliver_bytes_receiver hv (ds ++ frameBytes gx gy)
  obtain ⟨_, hgood⟩ := bytes_frameBytes s.cfg.format k' s.acc hgx hgx' hgy hgy'
  rw [bytes_append, hds, hgood] at hrecv
  exact ⟨u, hu, congrArg Receiver.fsm hrecv, congrArg Receiver.acc hrecv⟩

/-- Settles O20. In the two lost cases the decoder reads the good frame's first bytes as the rest of another
frame, and skips what is left of it (V22, V20d). -/
theorem resyncAfterOneCorruptedByte : Obligations.ResyncAfterOneCorruptedByte := by
  refine ⟨fun s fx fy gx gy k b hv hf _ _ _ _ hgx hgx' hgy hgy' hk hb h0 => ?_,
    fun s hv hf => ?_, fun s hv hf => ?_⟩
  · obtain ⟨t, ht, hrecv⟩ := deliver_bytes_receiver hv ((frameBytes fx fy).set k b)
    obtain ⟨_, hdamaged⟩ := bytes_damagedFrame s.cfg.format s.scratch s.acc hk hb h0
    rw [← receiver_of_fsm hf] at hdamaged
    obtain ⟨u, hu, hgood⟩ := deliver_damaged_then_good hv hdamaged hgx hgx' hgy hgy'
    rw [hdamaged] at hrecv
    exact ⟨t, u, ht, congrArg Receiver.fsm hrecv, congrArg Receiver.acc hrecv, hu, hgood⟩
  · obtain ⟨t, ht, hrecv⟩ := deliver_bytes_receiver hv ((frameBytes 170 5).set 0 0x00#8 ++ frameBytes 10 5)
    rw [receiver_of_fsm hf] at hrecv
    exact ⟨t, ht, congrArg Receiver.fsm hrecv, congrArg Receiver.acc hrecv⟩
  · obtain ⟨t, ht, hrecv⟩ := deliver_bytes_receiver hv (frameBytes 10 5)
    rw [receiver_of_fsm hf] at hrecv
    exact ⟨t, ht, congrArg Receiver.fsm hrecv, congrArg Receiver.acc hrecv⟩

end Sys2Proof.Machine
end

section
/-!
SUPPORT. What R80 and R81 ask of the three formats: exact results are kept, every result is a value, and the
binary formats round to nearest with ties to even and overflow half a unit beyond their largest value.
-/

namespace Sys2Proof.Machine

section
variable {f : NumFormat} {x y : ℚ} (a b : Bool)

/-! Where the exact result is a value of the format, it is the result (R81 a). -/

theorem fadd_exact_hit (h : isFiniteValue f (x + y)) : ∃ m, fadd f (.fin x a) (.fin y b) = .fin (x + y) m :=
  ⟨_, by rw [fadd, addQ_eq, pack_value h]⟩

theorem fsub_exact_hit (h : isFiniteValue f (x - y)) : ∃ m, fsub f (.fin x a) (.fin y b) = .fin (x - y) m :=
  ⟨_, by rw [fsub, subQ_eq, pack_value h]⟩

theorem fmul_exact_hit (h : isFiniteValue f (x * y)) : ∃ m, fmul f (.fin x a) (.fin y b) = .fin (x * y) m :=
  ⟨_, by rw [fmul, mulQ_eq, pack_value h]⟩

theorem fdiv_exact_hit (hy : y ≠ 0) (h : isFiniteValue f (x / y)) :
    ∃ m, fdiv f (.fin x a) (.fin y b) = .fin (x / y) m :=
  ⟨_, by rw [fdiv, if_neg hy, divQ_eq, pack_value h]⟩
end

theorem isValue_of {f : NumFormat} {q : ℚ} (h : isFiniteValue f q) : isValue f (.of q) := by
  simp [isValue, h]

/-- The magnitude of the integer part is the floor of the magnitude. -/
theorem abs_tdiv_eq_floor (q : ℚ) : |((q.num.tdiv q.den : ℤ) : ℚ)| = ⌊|q|⌋₊ := by
  rw [← natAbs_num_div_den q, Nat.floor_div_eq_div, ← Int.cast_abs, ← Nat.cast_natAbs, Int.natAbs_tdiv,
    Int.natAbs_natCast]
  rfl

/-- The integer part has the sign of the number, or is 0. -/
theorem tdiv_mul_nonneg (q : ℚ) : 0 ≤ ((q.num.tdiv q.den : ℤ) : ℚ) * q := by
  rcases le_total 0 q with h | h
  · exact mul_nonneg (Int.cast_nonneg (Int.tdiv_nonneg (Rat.num_nonneg.mpr h) (Int.natCast_nonneg _))) h
  · have hneg : q.num.tdiv q.den ≤ 0 := by
      rw [← neg_nonneg, ← Int.neg_tdiv]
      exact Int.tdiv_nonneg (neg_nonneg.mpr (Rat.num_nonpos.mpr h)) (Int.natCast_nonneg _)
    exact mul_nonneg_of_nonpos_of_nonpos (Int.cast_nonpos.mpr hneg) h

/-- `trunc` is the integer part, toward zero (R81 d). -/
theorem trunc_spec (q : ℚ) (a : Bool) : ∃ n : ℤ, trunc (.fin q a) = some n ∧ |(n : ℚ)| ≤ |q| ∧ |q| < |(n : ℚ)| + 1
    ∧ 0 ≤ (n : ℚ) * q := by
  refine ⟨_, rfl, ?_, ?_, tdiv_mul_nonneg q⟩ <;> rw [abs_tdiv_eq_floor]
  · exact Nat.floor_le (abs_nonneg q)
  · exact Nat.lt_floor_add_one |q|

/-- Settles O27. -/
theorem numIsAdmissible : Obligations.NumIsAdmissible := by
  intro f
  refine ⟨fun x y a b => ?_, fun n k hn hk => ?_, fun x y a b => flt_fin x y a b, trunc_spec⟩
  · exact ⟨fadd_exact_hit a b, fsub_exact_hit a b, fmul_exact_hit a b, fdiv_exact_hit a b⟩
  · exact ⟨ofInt_eq f hn, isValue_of (isFiniteValue_int f hn), isValue_of (isFiniteValue_dyadic f hn hk)⟩

/-- Settles O29: it is `isFiniteValue_iff` with the numbers of each format. -/
theorem finiteValuesOfTheFormats : Obligations.FiniteValuesOfTheFormats := by
  refine ⟨fun q => ?_, fun q => ?_, fun q => ?_⟩ <;> rw [isFiniteValue_iff] <;>
    simp [ValueUnbounded, significandBits, minExponent, overflowExponent]

/-- Settles O30. -/
theorem resultsAreValues : Obligations.ResultsAreValues := fun _ _ _ ha hb =>
  ⟨fadd_isValue ha hb, fsub_isValue ha hb, fmul_isValue ha hb, fdiv_isValue ha hb⟩

@[simp] theorem fdiv_nan_right (f : NumFormat) (a : Num) : fdiv f a .nan = .nan := by cases a <;> rfl

/-- An infinity times a finite number other than 0 is the infinity of the product's sign. -/
theorem fmul_inf_fin (f : NumFormat) (m n : Bool) {q : ℚ} (hq : q ≠ 0) :
    fmul f (.inf m) (.fin q n) = .inf (m != decide (q < 0)) := by
  simp [fmul, hq, Rat.num_neg]

/-- An infinity over a positive number is that infinity. -/
theorem fdiv_inf_pos (f : NumFormat) (m n : Bool) {q : ℚ} (hq : 0 < q) : fdiv f (.inf m) (.fin q n) = .inf m := by
  simp [fdiv, signOf, hq.ne', hq.not_gt]

/-- Settles O31, by the table of the operations. -/
theorem specialValuesFollowIeee : Obligations.SpecialValuesFollowIeee := by
  intro f a q m n
  refine ⟨by simp, ⟨?_, ?_, rfl, rfl⟩, ⟨?_, rfl, rfl⟩, ⟨?_, fun hq => ?_, fun hq => ?_, ?_⟩,
    ⟨rfl, fdiv_inf_pos f m n⟩, by simp, rfl, rfl⟩
  · simp [fadd]
  · simp [fadd]
  · simp [fsub]
  · simp [fmul]
  · simp [fmul_inf_fin f m n hq.ne', hq.not_gt]
  · simp [fmul_inf_fin f m n hq.ne, hq]
  · simp [fmul]

/-! Rounding to nearest, ties to even (R80). -/

/-- `roundUnbounded` counts units in the last place of the magnitude and puts the sign back. -/
theorem roundUnbounded_eq (f : NumFormat) (q : ℚ) : roundUnbounded f q =
    ((if q < 0 then -roundedUnits f q.num.natAbs q.den else roundedUnits f q.num.natAbs q.den : ℤ) : ℚ) * 2 ^ ulp f q := by
  simp only [roundUnbounded, scale2_eq, ulp, Rat.num_neg]

section
variable {f : NumFormat} (hf : f ≠ .exact)
include hf

theorem roundUnbounded_zero : roundUnbounded f 0 = 0 :=
  roundUnbounded_value hf ((isFiniteValue_iff f 0).mp (isFiniteValue_zero f)).1

theorem roundUnbounded_neg (q : ℚ) : roundUnbounded f (-q) = -roundUnbounded f q := by
  rcases eq_or_ne q 0 with rfl | hq
  · rw [neg_zero, roundUnbounded_zero hf, neg_zero]
  have hu : ulp f (-q) = ulp f q := by simp [ulp]
  rw [roundUnbounded_eq, roundUnbounded_eq, hu, Rat.neg_num, Int.natAbs_neg, Rat.neg_den]
  rcases lt_or_gt_of_ne hq with h | h
  · simp [h, h.le]
  · simp [h, h.le]

/-- The magnitude of the result is the rounded magnitude. -/
theorem abs_roundUnbounded (q : ℚ) : |roundUnbounded f q| = roundUnbounded f |q| := by
  have hnonneg {x : ℚ} (hx : 0 ≤ x) : 0 ≤ roundUnbounded f x := roundUnbounded_zero hf ▸ roundUnbounded_mono hf hx
  rcases le_total 0 q with h | h
  · rw [abs_of_nonneg h, abs_of_nonneg (hnonneg h)]
  · rw [abs_of_nonpos h, roundUnbounded_neg hf, abs_of_nonpos]
    have := hnonneg (neg_nonneg.mpr h)
    rw [roundUnbounded_neg hf] at this
    linarith

/-- The error of rounding is that of rounding the magnitude. -/
theorem abs_roundUnbounded_sub (q : ℚ) : |roundUnbounded f q - q| = |roundUnbounded f (|q|) - (|q|)| := by
  rcases abs_choice q with h | h <;> rw [h]
  rw [roundUnbounded_neg hf, ← neg_sub', abs_neg]

theorem roundQ_eq_none_iff (q : ℚ) : roundQ f q = none ↔ 2 ^ overflowExponent f ≤ roundUnbounded f |q| := by
  rw [roundQ_binary hf, ← abs_roundUnbounded hf, ite_eq_right_iff, ← not_lt]
  simp
end

theorem valueUnbounded_two_zpow {f : NumFormat} {g : ℤ} (hg : minExponent f ≤ g) : ValueUnbounded f (2 ^ g) := by
  have hsig : (1 : ℤ) < 2 ^ significandBits f := one_lt_pow₀ (by norm_num) (significandBits_pos f).ne'
  exact .inr ⟨1, g, by rwa [abs_one], hg, by rw [Int.cast_one, one_mul]⟩

/-- The unit in the last place of a number between two powers of two. -/
theorem ulp_of_binade (f : NumFormat) {q : ℚ} {g : ℤ} (hlo : (2 : ℚ) ^ g ≤ |q|) (hhi : |q| < 2 ^ (g + 1)) :
    ulp f q = max (g - (significandBits f - 1 : ℕ)) (minExponent f) := by
  have hq : q ≠ 0 := abs_pos.mp ((by positivity : (0 : ℚ) < 2 ^ g).trans_le hlo)
  obtain ⟨hlo', hhi'⟩ := floorLog2_spec (n := q.num.natAbs) (d := q.den)
    (Int.natAbs_pos.mpr (Rat.num_ne_zero.mpr hq)) q.den_pos
  rw [natAbs_num_div_den] at hlo' hhi'
  have h1 := (zpow_lt_zpow_iff_right₀ (one_lt_two (α := ℚ))).mp (hlo.trans_lt hhi')
  have h2 := (zpow_lt_zpow_iff_right₀ (one_lt_two (α := ℚ))).mp (hlo'.trans_lt hhi)
  rw [ulp, ulpExponent, show floorLog2 q.num.natAbs q.den = g by omega]

/-- On a tie the count of units is even. -/
theorem roundedUnits_even_of_tie {f : NumFormat} {q : ℚ}
    (htie : |(roundedUnits f q.num.natAbs q.den : ℚ) - |q| / 2 ^ ulp f q| = 1 / 2) :
    Even (roundedUnits f q.num.natAbs q.den : ℤ) := by
  have h := roundHalfEven_even_of_tie (n := q.num.natAbs * 2 ^ (-ulp f q).toNat)
    (d := q.den * 2 ^ (ulp f q).toNat) (Nat.mul_pos q.den_pos (by positivity))
  rw [scaled_fraction, natAbs_num_div_den] at h
  rw [Int.even_coe_nat, Nat.even_iff]
  exact h htie

/-- So is the result of rounding as a multiple of the unit, with its sign. -/
theorem roundUnbounded_even_of_tie {f : NumFormat} {q : ℚ} {m : ℤ} (hm : roundUnbounded f q = m * 2 ^ ulp f q)
    (htie : |(m : ℚ) - q / 2 ^ ulp f q| = 1 / 2) : Even m := by
  rw [roundUnbounded_eq, mul_left_inj' (by positivity), Int.cast_inj] at hm
  subst hm
  split_ifs at htie ⊢ with hq
  · refine (roundedUnits_even_of_tie ?_).neg
    rw [abs_of_neg hq, ← htie, ← abs_neg, neg_sub', neg_div, neg_neg]
    push_cast
    rfl
  · exact roundedUnits_even_of_tie (by rw [abs_of_nonneg (not_lt.mp hq)]; exact htie)

section
variable {f : NumFormat} (hf : f ≠ .exact)
include hf

/-- A value either is a whole number of units in the last place of `q`, or lies below the power of two that
begins the binade of `q` and is farther from `q` than the result of rounding. -/
theorem value_on_grid_or_farther (q : ℚ) {v : ℚ} (hv : ValueUnbounded f v) :
    (∃ k : ℤ, v = k * 2 ^ ulp f q) ∨ |roundUnbounded f q - q| < |v - q| := by
  obtain ⟨k, e, hk, hmin, rfl⟩ := hv.resolve_left hf
  rcases le_or_gt (ulp f q) e with he | he
  · obtain ⟨j, rfl⟩ := Int.le.dest he
    exact .inl ⟨k * 2 ^ j, by rw [zpow_add₀ (by norm_num), zpow_natCast]; push_cast; ring⟩
  rcases eq_or_ne q 0 with rfl | hq
  · rcases eq_or_ne k 0 with rfl | hk0
    · exact .inl ⟨0, by simp⟩
    · right
      rw [roundUnbounded_zero hf, sub_zero, abs_zero, sub_zero, abs_pos]
      exact mul_ne_zero (Int.cast_ne_zero.mpr hk0) (by positivity)
  obtain ⟨g, hlo, hhi⟩ := exists_mem_Ico_zpow (abs_pos.mpr hq) (one_lt_two (α := ℚ))
  have hp := significandBits_pos f
  rw [ulp_of_binade f hlo hhi] at he
  have hsmall : |(k : ℚ) * 2 ^ e| < 2 ^ g := by
    have hk' : |(k : ℚ)| < 2 ^ significandBits f := by exact_mod_cast hk
    rw [abs_mul, abs_of_pos (a := (2 : ℚ) ^ e) (by positivity)]
    calc |(k : ℚ)| * 2 ^ e < 2 ^ significandBits f * 2 ^ e := by gcongr
      _ = 2 ^ (significandBits f + e : ℤ) := by rw [zpow_add₀ (by norm_num), zpow_natCast]
      _ ≤ 2 ^ g := zpow_le_zpow_right₀ (by norm_num) (by omega)
  right
  calc |roundUnbounded f q - q| = |roundUnbounded f (|q|) - (|q|)| := abs_roundUnbounded_sub hf q
    _ ≤ |2 ^ g - (|q|)| := roundUnbounded_nearest hf |q| (valueUnbounded_two_zpow (by omega))
    _ = |q| - 2 ^ g := by rw [abs_sub_comm, abs_of_nonneg (sub_nonneg.mpr hlo)]
    _ < |q| - |(k : ℚ) * 2 ^ e| := by linarith
    _ ≤ |k * 2 ^ e - q| := by rw [abs_sub_comm]; exact abs_sub_abs_le_abs_sub q _

/-- Where another value is as near as the result, the result is an even number of units in the last place. -/
theorem roundUnbounded_tie_even {q v : ℚ} (hv : ValueUnbounded f v) (hne : v ≠ roundUnbounded f q)
    (heq : |roundUnbounded f q - q| = |v - q|) : ∃ m : ℤ, roundUnbounded f q = (2 * m : ℤ) * 2 ^ ulp f q := by
  obtain ⟨k, rfl⟩ := (value_on_grid_or_farther hf q hv).resolve_right heq.not_lt
  obtain ⟨m, hm, hnear⟩ := roundUnbounded_spec f q
  have hpos : (0 : ℚ) < 2 ^ ulp f q := by positivity
  have units (n : ℤ) : |(n : ℚ) * 2 ^ ulp f q - q| = |n - q / 2 ^ ulp f q| * 2 ^ ulp f q := by
    rw [← abs_of_pos hpos, ← abs_mul, abs_of_pos hpos, sub_mul, div_mul_cancel₀ q hpos.ne']
  have hkm : k ≠ m := by
    rintro rfl
    exact hne hm.symm
  rw [hm, units, units, mul_left_inj' hpos.ne'] at heq
  have hgap : (1 : ℚ) ≤ |(k : ℚ) - m| := by exact_mod_cast Int.one_le_abs (sub_ne_zero.mpr hkm)
  have htri := abs_sub_le (k : ℚ) (q / 2 ^ ulp f q) m
  rw [← heq, abs_sub_comm (q / _)] at htri
  obtain ⟨n, rfl⟩ := (roundUnbounded_even_of_tie hm (by linarith)).two_dvd
  exact ⟨n, hm⟩
end

/-- Half a unit beyond the largest value of a binary format. -/
def overflowThreshold (f : NumFormat) : ℚ :=
  ((2 : ℚ) ^ significandBits f - 1 / 2) * 2 ^ ((overflowExponent f : ℤ) - significandBits f)

/-- The least overflowing power of two is `2^p` units of the last binade. -/
theorem two_pow_overflowExponent (f : NumFormat) : (2 : ℚ) ^ overflowExponent f =
    2 ^ significandBits f * 2 ^ ((overflowExponent f : ℤ) - significandBits f) := by
  rw [← zpow_natCast, ← zpow_natCast, ← zpow_add₀ (by norm_num), add_sub_cancel]

/-- The threshold lies in the last binade, whose unit is `2^(E - p)`. -/
theorem ulp_overflowThreshold (f : NumFormat) :
    ulp f (overflowThreshold f) = (overflowExponent f : ℤ) - significandBits f := by
  have hunit : (0 : ℚ) < 2 ^ ((overflowExponent f : ℤ) - significandBits f) := by positivity
  have hsig : (1 : ℚ) ≤ 2 ^ significandBits f := one_le_pow₀ (by norm_num)
  have hlast : (2 : ℚ) ^ ((overflowExponent f : ℤ) - 1 + 1) =
      2 ^ significandBits f * 2 ^ ((overflowExponent f : ℤ) - significandBits f) := by
    rw [sub_add_cancel, zpow_natCast, two_pow_overflowExponent]
  have habs : |overflowThreshold f| = overflowThreshold f := abs_of_nonneg (mul_nonneg (by linarith) hunit.le)
  have hlo : (2 : ℚ) ^ ((overflowExponent f : ℤ) - 1) ≤ |overflowThreshold f| := by
    rw [zpow_add_one₀ (by norm_num)] at hlast
    have := le_mul_of_one_le_left hunit.le hsig
    rw [habs, overflowThreshold]
    linarith
  have hhi : |overflowThreshold f| < 2 ^ ((overflowExponent f : ℤ) - 1 + 1) := by
    rw [habs, overflowThreshold, hlast]
    linarith
  rw [ulp_of_binade f hlo hhi]
  cases f <;> decide

/-- The threshold itself is a tie, and the largest value is an odd number of units, so it is rounded up. -/
theorem le_roundUnbounded_threshold (f : NumFormat) :
    2 ^ overflowExponent f ≤ roundUnbounded f (overflowThreshold f) := by
  obtain ⟨m, hm, hnear⟩ := roundUnbounded_spec f (overflowThreshold f)
  have hx : overflowThreshold f / 2 ^ ulp f (overflowThreshold f) = 2 ^ significandBits f - 1 / 2 := by
    rw [ulp_overflowThreshold f, overflowThreshold, mul_div_cancel_right₀ _ (by positivity)]
  have hlow : (2 ^ significandBits f - 1 : ℤ) ≤ m := by
    rw [hx] at hnear
    have := (abs_le.mp hnear).1
    exact_mod_cast (by linarith : (2 ^ significandBits f - 1 : ℚ) ≤ m)
  have hodd : (2 ^ significandBits f - 1 : ℤ) ≠ m := by
    rintro rfl
    have heven := roundUnbounded_even_of_tie hm (by rw [hx]; push_cast; norm_num)
    rw [Int.even_sub_one] at heven
    exact heven (even_two.pow_of_ne_zero (significandBits_pos f).ne')
  have hle : (2 ^ significandBits f : ℚ) ≤ m := by exact_mod_cast (by omega : (2 ^ significandBits f : ℤ) ≤ m)
  rw [hm, ulp_overflowThreshold f, two_pow_overflowExponent]
  gcongr

section
variable {f : NumFormat} (hf : f ≠ .exact)
include hf

/-- Below the threshold the largest value is nearer than `2^E`. -/
theorem roundUnbounded_lt_of_lt_threshold {x : ℚ} (h : x < overflowThreshold f) :
    roundUnbounded f x < 2 ^ overflowExponent f := by
  have hv : ValueUnbounded f ((2 ^ significandBits f - 1 : ℤ) * 2 ^ ((overflowExponent f : ℤ) - significandBits f)) := by
    have hpow : (0 : ℤ) < 2 ^ significandBits f := by positivity
    refine .inr ⟨_, _, by rw [abs_of_nonneg (by omega)]; omega, ?_, rfl⟩
    cases f <;> decide
  have hnear := roundUnbounded_nearest hf x hv
  have hunit : (0 : ℚ) < 2 ^ ((overflowExponent f : ℤ) - significandBits f) := by positivity
  rw [two_pow_overflowExponent]
  rw [overflowThreshold] at h
  push_cast at hnear
  generalize (2 : ℚ) ^ ((overflowExponent f : ℤ) - significandBits f) = u at *
  by_contra! hge
  rw [abs_of_pos (by linarith)] at hnear
  rcases abs_cases (((2 : ℚ) ^ significandBits f - 1) * u - x) with ⟨h', -⟩ | ⟨h', -⟩ <;> linarith

theorem roundQ_eq_none_iff_threshold (q : ℚ) : roundQ f q = none ↔ overflowThreshold f ≤ |q| := by
  rw [roundQ_eq_none_iff hf]
  refine ⟨fun h => ?_, fun h => (le_roundUnbounded_threshold f).trans (roundUnbounded_mono hf h)⟩
  by_contra! hlt
  exact absurd h (roundUnbounded_lt_of_lt_threshold hf hlt).not_ge
end

/-- Settles O28. -/
theorem roundingIsToNearestEven : Obligations.RoundingIsToNearestEven := by
  intro f q hf
  refine ⟨fun r hr => ?_, roundQ_eq_none_iff_threshold hf q⟩
  have hval := roundQ_isFiniteValue hr
  have hround : roundUnbounded f q = r := by
    rw [roundQ_binary hf] at hr
    split_ifs at hr
    exact Option.some_inj.mp hr
  subst hround
  have hvalue {v : ℚ} (hv : isFiniteValue f v) : ValueUnbounded f v := ((isFiniteValue_iff f v).mp hv).1
  exact ⟨hval, fun v hv => roundUnbounded_nearest hf q (hvalue hv),
    fun v hv hne heq => roundUnbounded_tie_even hf (hvalue hv) hne heq⟩

end Sys2Proof.Machine
end

section
/-!
SUPPORT. The control law of one channel (R82 to R84): what `PID.COMPUTE` writes, that channels do not meet,
what the integral policy keeps, and the closed form of R87 in exact arithmetic.
-/

namespace Sys2Proof.Machine

theorem limit_of_none {cfg : Config} (h : cfg.integralLimit = none) (i : Num) : limit cfg i = i := by
  rw [limit, h]

theorem limit_of_some {cfg : Config} {l : Num} (h : cfg.integralLimit = some l) (i : Num) : limit cfg i =
    if flt i (fsub cfg.format (ofInt cfg.format 0) l) then fsub cfg.format (ofInt cfg.format 0) l
    else if flt l i then l else i := by
  rw [limit, h]

/-- The record of a channel is the entry of the bank's list. -/
theorem channel_of_getElem? {s : State} {c : Fin s.cfg.nch} {k : Channel} (h : s.channels[c.val]? = some k) :
    s.channel c = k := by
  rw [channel_eq]
  exact (List.getElem?_eq_some_iff.mp h).2

/-- Settles O22. -/
theorem pidComputeResult : Obligations.PidComputeResult := by
  intro s c k target current hk
  obtain rfl := channel_of_getElem? hk
  refine ⟨_, _, _, rfl, fun h => ?_, fun l h => ?_, rfl, _, execPidCompute_own s c target current⟩
  · exact limit_of_none h _
  · exact limit_of_some h _

/-- `PID.COMPUTE` on two channels of the bank writes two records, each from itself alone (R83, R89). -/
theorem pidCompute_comm (s : State) {c d : Fin s.cfg.nch} (h : c ≠ d) (t u t' u' : Num) :
    State.pidCompute (s.pidCompute c t u) d t' u' = State.pidCompute (s.pidCompute d t' u') c t u := by
  have hd : (s.pidCompute c t u).channel d = s.channel d := channel_setChannel_ne s c _ h
  have hc : (s.pidCompute d t' u').channel c = s.channel c := channel_setChannel_ne s d _ h.symm
  unfold State.pidCompute at hd hc ⊢
  rw [hd, hc]
  exact setChannel_comm s c _ _ h

/-- Before or after `PID.COMPUTE` on any index, one on an index of another bank is refused. -/
theorem pidCompute_then_other {s : State} {d : ChannelId} (h : d.nch ≠ s.cfg.nch) (c : ChannelId) (t u t' u' : Num) :
    andThen (execPidCompute c t u s) (execPidCompute d t' u') = .refused .otherBank := by
  cases hc : s.index? c with
  | none => rw [execPidCompute, hc]; rfl
  | some i =>
    rw [execPidCompute, hc]
    exact execPidCompute_other (s := s.pidCompute i t u) h t' u'

/-- Settles O24. -/
theorem pidChannelsAreIndependent : Obligations.PidChannelsAreIndependent := by
  intro s c d t u t' u' hne
  change andThen (execPidCompute c t u s) (execPidCompute d t' u')
    = andThen (execPidCompute d t' u' s) (execPidCompute c t u)
  by_cases hc : c.nch = s.cfg.nch
  · by_cases hd : d.nch = s.cfg.nch
    · obtain ⟨n, i⟩ := c
      obtain ⟨m, j⟩ := d
      obtain rfl : n = s.cfg.nch := hc
      obtain rfl : m = s.cfg.nch := hd
      have hij : i ≠ j := by
        rintro rfl
        exact hne rfl
      rw [execPidCompute_own, execPidCompute_own, andThen_next, andThen_next]
      calc execPidCompute ⟨s.cfg.nch, j⟩ t' u' (s.pidCompute i t u)
          = .next (State.pidCompute (s.pidCompute i t u) j t' u') := execPidCompute_own (s.pidCompute i t u) j t' u'
        _ = .next (State.pidCompute (s.pidCompute j t' u') i t u) := by rw [pidCompute_comm s hij]
        _ = execPidCompute ⟨s.cfg.nch, i⟩ t u (s.pidCompute j t' u') :=
          (execPidCompute_own (s.pidCompute j t' u') i t u).symm
    · rw [pidCompute_then_other hd, execPidCompute_other hd, andThen_refused]
  · rw [pidCompute_then_other hc, execPidCompute_other hc, andThen_refused]

theorem isFiniteValue_neg {f : NumFormat} {q : ℚ} (h : isFiniteValue f q) : isFiniteValue f (-q) := by
  rw [isFiniteValue_iff] at h ⊢
  obtain ⟨hv, hr⟩ := h
  rw [abs_neg]
  refine ⟨hv.imp_right ?_, hr⟩
  rintro ⟨m, e, hm, he, rfl⟩
  exact ⟨-m, e, by rwa [abs_neg], he, by push_cast; ring⟩

/-- The lower bound of a limited integral is the limit with its sign changed, exactly (R84). -/
theorem neg_limit_eq {f : NumFormat} {l : ℚ} (h : isFiniteValue f l) (m : Bool) :
    ∃ n, fsub f (ofInt f 0) (.fin l m) = .fin (-l) n := by
  have hv := isFiniteValue_neg h
  rw [← zero_sub] at hv ⊢
  rw [ofInt_eq f (by norm_num), Int.cast_zero]
  exact fsub_exact_hit false m hv

/-- `limit` with a limit, in the order of the reals. -/
theorem limit_eq {cfg : Config} (hv : cfg.valid) {l : ℚ} {m : Bool} (h : cfg.integralLimit = some (.fin l m)) :
    0 ≤ l ∧ ∃ n, ∀ i, limit cfg i =
      if flt i (.fin (-l) n) then .fin (-l) n else if flt (.fin l m) i then .fin l m else i := by
  obtain ⟨_, _, ⟨⟩, h0, hl, -⟩ := (validConfig hv).limit _ h
  obtain ⟨n, hn⟩ := neg_limit_eq hl m
  exact ⟨h0, n, fun i => by rw [limit_of_some h, hn]⟩

/-- Settles O25. -/
theorem integralLimitPolicy : Obligations.IntegralLimitPolicy := by
  intro cfg hv
  refine ⟨limit_of_none, fun l m h => ?_⟩
  obtain ⟨h0, n, hlimit⟩ := limit_eq hv h
  have hlow : Bounded l (.fin (-l) n) := ⟨_, _, rfl, by rw [abs_neg, abs_of_nonneg h0]⟩
  have hhigh : Bounded l (.fin l m) := ⟨_, _, rfl, (abs_of_nonneg h0).le⟩
  refine ⟨fun i hi => ?_, ?_⟩
  · rw [hlimit]
    split_ifs with h1 h2
    · exact hlow
    · exact hhigh
    · cases i with
      | nan => exact absurd rfl hi
      | inf s => cases s <;> simp at h1 h2
      | fin q s =>
        rw [flt_fin, decide_eq_true_eq, not_lt] at h1 h2
        exact ⟨q, s, rfl, abs_le.mpr ⟨h1, h2⟩⟩
  · rintro _ ⟨q, s, rfl, hq⟩
    obtain ⟨h1, h2⟩ := abs_le.mp hq
    rw [hlimit, flt_fin, flt_fin, decide_eq_false h1.not_gt, decide_eq_false h2.not_gt]
    simp

/-! In exact arithmetic every operation on finite numbers is that of `ℚ`, and there is one zero. -/

section
variable (x y : ℚ) (a b : Bool)

@[simp] theorem pack_exact (q : ℚ) (zs : Bool) : pack .exact q zs = .of q := by simp [pack, hasSpecials]
@[simp] theorem fadd_exact : fadd .exact (.fin x a) (.fin y b) = .of (x + y) := by simp [fadd]
@[simp] theorem fsub_exact : fsub .exact (.fin x a) (.fin y b) = .of (x - y) := by simp [fsub]
@[simp] theorem fmul_exact : fmul .exact (.fin x a) (.fin y b) = .of (x * y) := by simp [fmul]
@[simp] theorem fdiv_exact (hy : y ≠ 0) : fdiv .exact (.fin x a) (.fin y b) = .of (x / y) := by simp [fdiv, hy]
end

/-- With `Ki = Kd = 0` the output is the proportional term alone. -/
theorem pidOutput_proportional (kp e i prev : ℚ) :
    pidOutput .exact (.of kp) (.of 0) (.of 0) (.of e) (.of i) (.of prev) = .of (kp * e / 100) := by
  simp [pidOutput, ofInt_hundred]

/-- Settles O26: without saturation the new position is the old one and the proportional output. -/
theorem proportionalLoopScalesError : Obligations.ProportionalLoopScalesError := by
  intro cfg k kp t pos i prev hv hformat hlimit hp hi hd hint hprev hpos ht hnew
  have herror : (tickedChannel cfg (.of t) k).pid.error = .of (t - pos) := by
    simp [tickedChannel, pidUpdate, hformat, clamp_of_inRange hv ht, hpos]
  have hout : (tickedChannel cfg (.of t) k).pid.lastOutput = .of (kp * (t - pos) / 100) := by
    simp [tickedChannel, pidUpdate, hformat, clamp_of_inRange hv ht, hpos, limit_of_none hlimit, hp, hi, hd, hint, hprev,
      pidOutput_proportional]
  have hposition : (tickedChannel cfg (.of t) k).chan.currentPosition = .of (pos + kp * (t - pos) / 100) := by
    change clamp cfg (fadd cfg.format k.chan.currentPosition (tickedChannel cfg (.of t) k).pid.lastOutput) = _
    rw [hout, hpos, hformat, fadd_exact, clamp_of_inRange hv hnew]
  exact ⟨_, hposition, herror, by ring⟩

end Sys2Proof.Machine
end

section
/-!
SUPPORT. Magnitudes under the arithmetic of `NUM`, and the bounds of R88: at the baseline no operation of
the control law overflows, and an integral of `2^35` absorbs an error.
-/

namespace Sys2Proof.Machine

theorem Bounded.mono {b c : ℚ} {v : Num} (h : Bounded b v) (hbc : b ≤ c) : Bounded c v := by
  obtain ⟨q, m, rfl, hq⟩ := h
  exact ⟨q, m, rfl, hq.trans hbc⟩

theorem Bounded.isFinite {b : ℚ} {v : Num} (h : Bounded b v) : isFinite v := by
  obtain ⟨q, m, rfl, -⟩ := h
  rfl

theorem bounded_zero {b : ℚ} (hb : 0 ≤ b) : Bounded b (.of 0) := ⟨0, false, rfl, by rwa [abs_zero]⟩

/-- The powers of two that every format holds as values. -/
theorem isFiniteValue_two_pow (f : NumFormat) {n : ℕ} (hn : n < 128) : isFiniteValue f ((2 : ℚ) ^ n) := by
  have hmin : minExponent f ≤ n := (by cases f <;> decide : minExponent f ≤ 0).trans (Int.natCast_nonneg n)
  have hmax : 128 ≤ overflowExponent f := by cases f <;> decide
  refine (isFiniteValue_iff f _).mpr ⟨zpow_natCast (2 : ℚ) n ▸ valueUnbounded_two_zpow hmin, .inr ?_⟩
  rw [abs_of_pos (by positivity)]
  exact pow_lt_pow_right₀ (by norm_num) (hn.trans_le hmax)

section
variable {f : NumFormat} {a b : Num} {x y c : ℚ} (hc : isFiniteValue f c)
include hc

/-- A bound that is a value of the format survives the rounding of a result. -/
theorem pack_bounded {q : ℚ} (h : |q| ≤ c) (zs : Bool) : Bounded c (pack f q zs) := by
  obtain ⟨r, hr, hrc⟩ := roundQ_abs_le hc h
  exact ⟨r, _, by rw [pack, hr], hrc⟩

theorem fadd_bounded (ha : Bounded x a) (hb : Bounded y b) (h : x + y ≤ c) : Bounded c (fadd f a b) := by
  obtain ⟨p, m, rfl, hp⟩ := ha
  obtain ⟨q, n, rfl, hq⟩ := hb
  rw [fadd, addQ_eq]
  exact pack_bounded hc (((abs_add_le p q).trans (add_le_add hp hq)).trans h) _

theorem fsub_bounded (ha : Bounded x a) (hb : Bounded y b) (h : x + y ≤ c) : Bounded c (fsub f a b) := by
  obtain ⟨p, m, rfl, hp⟩ := ha
  obtain ⟨q, n, rfl, hq⟩ := hb
  rw [fsub, subQ_eq]
  exact pack_bounded hc (((abs_sub p q).trans (add_le_add hp hq)).trans h) _

theorem fmul_bounded (ha : Bounded x a) (hb : Bounded y b) (h : x * y ≤ c) : Bounded c (fmul f a b) := by
  obtain ⟨p, m, rfl, hp⟩ := ha
  obtain ⟨q, n, rfl, hq⟩ := hb
  rw [fmul, mulQ_eq]
  refine pack_bounded hc (le_trans ?_ h) _
  rw [abs_mul]
  exact mul_le_mul hp hq (abs_nonneg q) ((abs_nonneg p).trans hp)

/-- The one division of the control law makes no number larger (R82, R97). -/
theorem fdiv_hundred_bounded (ha : Bounded c a) : Bounded c (fdiv f a (.of 100)) := by
  obtain ⟨p, m, rfl, hp⟩ := ha
  rw [fdiv, if_neg (by norm_num), divQ_eq]
  refine pack_bounded hc (le_trans ?_ hp) _
  rw [abs_div]
  exact div_le_self (abs_nonneg p) (by norm_num)
end

/-- Two numbers of the baseline range differ by at most 2000 (R88). -/
theorem fsub_inRange_bounded {cfg : Config} (hr : cfg.pwMin = 2000 ∧ cfg.pwMax = 4000) {a b : Num}
    (ha : InRange cfg a) (hb : InRange cfg b) : Bounded 2000 (fsub cfg.format a b) := by
  obtain ⟨p, m, rfl, hp, hp'⟩ := ha
  obtain ⟨q, n, rfl, hq, hq'⟩ := hb
  rw [hr.1] at hp hq
  rw [hr.2] at hp' hq'
  push_cast at hp hq hp' hq'
  have hval : isFiniteValue cfg.format 2000 := by simpa using isFiniteValue_int cfg.format (n := 2000) (by norm_num)
  rw [fsub, subQ_eq]
  exact pack_bounded hval (abs_le.mpr ⟨by linarith, by linarith⟩) _

/-- A number of the baseline range is at most `2^12` in magnitude. -/
theorem InRange.bounded {cfg : Config} (hr : cfg.pwMax = 4000) {v : Num} (h : InRange cfg v) : Bounded (2 ^ 12) v := by
  obtain ⟨q, m, rfl, hlo, hhi⟩ := h
  rw [hr] at hhi
  push_cast at hhi
  have h0 : (0 : ℚ) ≤ q := (Nat.cast_nonneg _).trans hlo
  exact ⟨q, m, rfl, by rw [abs_of_nonneg h0]; linarith⟩

/-- From `2^35` on binary32 is spaced by `2^12`, so a sum less than half of that beyond `2^35` is rounded
back to it, on either side (R88). -/
theorem roundUnbounded_integral_bound {q : ℚ} (h : |q| ≤ 2 ^ 35 + 2000) : |roundUnbounded .binary32 q| ≤ 2 ^ 35 := by
  obtain ⟨hlo, hhi⟩ := abs_le.mp h
  have hup : roundUnbounded .binary32 (2 ^ 35 + 2000) = 2 ^ 35 := by
    norm_num only
    decide
  have hdown : roundUnbounded .binary32 (-(2 ^ 35 + 2000)) = -2 ^ 35 := by
    norm_num only
    decide
  have hbinary : NumFormat.binary32 ≠ .exact := nofun
  exact abs_le.mpr ⟨hdown ▸ roundUnbounded_mono hbinary hlo, hup ▸ roundUnbounded_mono hbinary hhi⟩

/-- Adding an error keeps the integral within `2^35` (R88). -/
theorem fadd_integral_bounded {i e : Num} (hi : Bounded (2 ^ 35) i) (he : Bounded 2000 e) :
    Bounded (2 ^ 35) (fadd .binary32 i e) := by
  obtain ⟨p, m, rfl, hp⟩ := hi
  obtain ⟨q, n, rfl, hq⟩ := he
  have h := roundUnbounded_integral_bound ((abs_add_le p q).trans (add_le_add hp hq))
  rw [fadd, addQ_eq, pack, roundQ_binary (f := .binary32) nofun,
    if_pos (h.trans_lt (by norm_num [overflowExponent]))]
  exact ⟨_, _, rfl, h⟩

/-- No intermediate result of R82 overflows: each term is within `2^95`, and so the output within `2^97`. -/
theorem pidOutput_bounded (f : NumFormat) {kp ki kd e i prev : Num} (hp : Bounded (2 ^ 60) kp)
    (hki : Bounded (2 ^ 60) ki) (hkd : Bounded (2 ^ 60) kd) (he : Bounded 2000 e) (hi : Bounded (2 ^ 35) i)
    (hprev : Bounded 2000 prev) : Bounded (2 ^ 97) (pidOutput f kp ki kd e i prev) := by
  have two_pow {n : ℕ} (hn : n < 128) := isFiniteValue_two_pow f hn
  have hterm_p : Bounded (2 ^ 95) (fmul f kp e) := fmul_bounded (two_pow (by norm_num)) hp he (by norm_num)
  have hterm_i : Bounded (2 ^ 95) (fmul f ki i) := fmul_bounded (two_pow (by norm_num)) hki hi (by norm_num)
  have hdiff : Bounded (2 ^ 12) (fsub f e prev) := fsub_bounded (two_pow (by norm_num)) he hprev (by norm_num)
  have hterm_d : Bounded (2 ^ 95) (fmul f kd (fsub f e prev)) :=
    fmul_bounded (two_pow (by norm_num)) hkd hdiff (by norm_num)
  have hsum : Bounded (2 ^ 96) (fadd f (fmul f kp e) (fmul f ki i)) :=
    fadd_bounded (two_pow (by norm_num)) hterm_p hterm_i (by norm_num)
  unfold pidOutput
  rw [ofInt_hundred]
  exact fdiv_hundred_bounded (two_pow (by norm_num))
    (fadd_bounded (two_pow (by norm_num)) hsum hterm_d (by norm_num))

/-- A target that is not NaN keeps a channel within R88's bounds, and its position is a number. -/
theorem BoundedChannel.ticked {cfg : Config} (hv : cfg.valid) (hrange : cfg.pwMin = 2000 ∧ cfg.pwMax = 4000)
    (hlimit : cfg.integralLimit = none) (hformat : cfg.format = .binary32) {raw : Num} (hraw : raw ≠ .nan)
    {k : Channel} (h : BoundedChannel cfg k) : BoundedChannel cfg (tickedChannel cfg raw k) := by
  obtain ⟨hp, hi, hd⟩ := h.gains
  have htarget : InRange cfg (clamp cfg raw) := (clamp_cases hv raw).resolve_left fun hn => hraw hn.1
  have herror := fsub_inRange_bounded hrange htarget h.position
  set p := pidUpdate cfg k.pid (clamp cfg raw) k.chan.currentPosition with hpid
  have hintegral : Bounded (2 ^ 35) p.integralAccumulator := by
    rw [hpid, pidUpdate, limit_of_none hlimit]
    rw [hformat] at herror ⊢
    exact fadd_integral_bounded h.integral herror
  have hout : Bounded (2 ^ 97) p.lastOutput := pidOutput_bounded cfg.format hp hi hd herror hintegral h.previous
  have hsum : Bounded (2 ^ 98) (fadd cfg.format k.chan.currentPosition p.lastOutput) :=
    fadd_bounded (isFiniteValue_two_pow _ (by norm_num)) (h.position.bounded hrange.2) hout (by norm_num)
  have hposition : InRange cfg (clamp cfg (fadd cfg.format k.chan.currentPosition p.lastOutput)) :=
    (clamp_cases hv _).resolve_left fun hn => by simpa [hn.1, isFinite] using hsum.isFinite
  exact
    { gains := h.gains
      integral := hintegral
      previous := herror
      output := hout.isFinite
      position := hposition }

theorem InRange.ne_nan {cfg : Config} {v : Num} (h : InRange cfg v) : v ≠ .nan := by
  obtain ⟨q, m, rfl, -⟩ := h
  simp

/-- A tick completes where no new position is NaN (R96). -/
theorem execTick_completes {s : State} (hv : s.cfg.valid)
    (h : ∀ k ∈ tickedChannels s, k.chan.currentPosition ≠ .nan) : ∃ t, execTick s = .next t := by
  obtain ⟨hnext, -⟩ := stepChannels_spec s.acc (allChannels s.cfg.nch) s.cfg.channels [] s.channels [] s hv
    rfl rfl rfl (consecutive_allChannels _)
  obtain ⟨_, _, -, hs⟩ := hnext h
  exact ⟨_, hs⟩

/-- A channel right after reset is within R88's bounds where its configured gains are. -/
theorem boundedChannel_atReset {cfg : Config} (hv : cfg.valid) {kc : ChannelConfig}
    (hg : Bounded (2 ^ 60) kc.gainP ∧ Bounded (2 ^ 60) kc.gainI ∧ Bounded (2 ^ 60) kc.gainD) :
    BoundedChannel cfg (Channel.atReset cfg kc) where
  gains := hg
  integral := bounded_zero (by norm_num)
  previous := bounded_zero (by norm_num)
  output := rfl
  position := (validConfig hv).pos_range

/-- The premises of R88 read the configuration, the accumulators and the channel records only. -/
theorem BoundedBaseline.of_fields {s t : State} (h : BoundedBaseline s) (hcfg : t.cfg = s.cfg)
    (hacc : t.acc.x ≠ .nan ∧ t.acc.y ≠ .nan) (hch : ∀ k ∈ t.channels, BoundedChannel s.cfg k) :
    BoundedBaseline t where
  config_valid := hcfg ▸ h.config_valid
  range := hcfg ▸ h.range
  no_limit := hcfg ▸ h.no_limit
  format := hcfg ▸ h.format
  config_gains := hcfg ▸ h.config_gains
  sp_reset := hcfg ▸ h.sp_reset
  acc := hacc
  channels := hcfg ▸ hch

/-- A delta makes no accumulator NaN: it is a finite number, and a finite number added to an infinity leaves
that infinity. -/
theorem fadd_delta_ne_nan (f : NumFormat) {a : Num} (ha : a ≠ .nan) {d : ℤ} (hd : |d| ≤ 32767) :
    fadd f a (ofInt f d) ≠ .nan := by
  cases a with
  | fin q m =>
    obtain ⟨zs, h⟩ := fadd_delta f q m hd
    exact h ▸ pack_ne_nan f _ zs
  | inf m => rw [ofInt_eq f (hd.trans (by norm_num))]; simp [fadd]
  | nan => exact absurd rfl ha

theorem accAfterByte_ne_nan {s : State} (h : s.acc.x ≠ .nan ∧ s.acc.y ≠ .nan) (b : Byte) :
    (accAfterByte b s).x ≠ .nan ∧ (accAfterByte b s).y ≠ .nan := by
  unfold accAfterByte
  split
  · exact ⟨fadd_delta_ne_nan _ h.1 (abs_scratchDx_le _), fadd_delta_ne_nan _ h.2 (abs_scratchDy_le _)⟩
  · exact h

theorem BoundedBaseline.get_ne_nan {s : State} (h : BoundedBaseline s) (a : Axis) : s.acc.get a ≠ .nan := by
  cases a
  · exact h.acc.1
  · exact h.acc.2

theorem BoundedBaseline.rx {s : State} (h : BoundedBaseline s) (b : Byte) :
    ∃ t, execRx b s = .next t ∧ BoundedBaseline t := by
  obtain ⟨_, _, _, hr⟩ := execRx_next b s
  exact ⟨_, hr, h.of_fields rfl (accAfterByte_ne_nan h.acc b) h.channels⟩

/-- Every record that a tick computes is within R88's bounds. -/
theorem BoundedBaseline.ticked {s : State} (h : BoundedBaseline s) :
    ∀ k ∈ tickedChannels s, BoundedChannel s.cfg k := by
  intro k hk
  rw [tickedChannels, ← List.map_uncurry_zip_eq_zipWith] at hk
  obtain ⟨⟨kc, k₀⟩, hmem, rfl⟩ := List.mem_map.mp hk
  exact (h.channels k₀ (List.of_mem_zip hmem).2).ticked h.config_valid h.range h.no_limit h.format (h.get_ne_nan _)

theorem BoundedBaseline.tick {s : State} (h : BoundedBaseline s) :
    ∃ t, execTick s = .next t ∧ BoundedBaseline t := by
  obtain ⟨t, ht⟩ := execTick_completes h.config_valid fun k hk => (h.ticked k hk).position.ne_nan
  obtain ⟨hch, -⟩ := execTick_channels h.config_valid ht
  obtain ⟨_, _, _, _, rfl, -⟩ := execTick_frame ht
  exact ⟨_, ht, h.of_fields rfl h.acc (hch ▸ h.ticked)⟩

theorem BoundedBaseline.reset {s : State} (h : BoundedBaseline s) :
    ∃ t, execReset s = .next t ∧ BoundedBaseline t := by
  refine ⟨_, rfl, h.of_fields rfl ⟨h.sp_reset, h.sp_reset⟩ ?_⟩
  intro k hk
  obtain ⟨kc, hkc, rfl⟩ := List.mem_map.mp hk
  exact boundedChannel_atReset h.config_valid (h.config_gains kc hkc)

/-- Settles O39, by the event that the step serves. -/
theorem baselineNeverFaults : Obligations.BaselineNeverFaults := by
  intro s h
  have hserved (es : List Event) : BoundedBaseline (served s es) := h.of_fields rfl h.acc h.channels
  rw [step_eq, if_pos h.config_valid]
  split
  next => exact ⟨s, rfl, h⟩
  next b es _ => exact (hserved es).rx b
  next es _ => exact (hserved es).tick
  next es _ => exact ⟨_, rfl, (hserved es).of_fields rfl h.acc h.channels⟩
  next es _ => exact (hserved es).reset

/-- The gains of the default configuration are far below `2^60`. -/
theorem scenarioGains_bounded (a : Axis) :
    Bounded (2 ^ 60) (Config.scenarioGains a).gainP ∧ Bounded (2 ^ 60) (Config.scenarioGains a).gainI
      ∧ Bounded (2 ^ 60) (Config.scenarioGains a).gainD :=
  ⟨⟨_, _, rfl, by rw [Rat.mkRat_eq_div]; norm_num [abs_of_pos]⟩, bounded_zero (by norm_num), ⟨_, _, rfl, by norm_num⟩⟩

/-- Settles O40: every record is `Channel.atReset` of the default configuration. -/
theorem resetIsBoundedBaseline : Obligations.ResetIsBoundedBaseline := by
  have hgains : ∀ kc ∈ Config.default.channels,
      Bounded (2 ^ 60) kc.gainP ∧ Bounded (2 ^ 60) kc.gainI ∧ Bounded (2 ^ 60) kc.gainD := by
    simp [Config.default, scenarioGains_bounded]
  exact
    { config_valid := by decide
      range := ⟨rfl, rfl⟩
      no_limit := rfl
      format := rfl
      config_gains := hgains
      sp_reset := nofun
      acc := ⟨nofun, nofun⟩
      channels := fun k hk => by
        obtain ⟨kc, hkc, rfl⟩ := List.mem_map.mp hk
        exact boundedChannel_atReset (by decide) (hgains kc hkc) }

end Sys2Proof.Machine
end

section
/-!
SUPPORT. The Control Scheduler (R90 to R96): what the saturation of a value is, what `CH.STEP` and `TICK`
answer, that two channels do not meet, and that a tick's NaN is the one thing that stops a step.
-/

namespace Sys2Proof.Machine

section
variable {cfg : Config} (hv : cfg.valid)
include hv

/-- The saturation of a finite number is that of the reals. -/
theorem clamp_fin_eq_max_min (q : ℚ) (m : Bool) :
    ∃ n, clamp cfg (.fin q m) = .fin (max (cfg.pwMin : ℚ) (min q cfg.pwMax)) n := by
  have hr : (cfg.pwMin : ℚ) ≤ cfg.pwMax := by exact_mod_cast (validConfig hv).range
  rw [clamp_fin hv]
  split_ifs with hlo hhi
  · exact ⟨false, by rw [max_eq_left ((min_le_left ..).trans hlo.le)]⟩
  · exact ⟨false, by rw [min_eq_right hhi.le, max_eq_right hr]⟩
  · exact ⟨m, by rw [min_eq_left (not_lt.mp hhi), max_eq_right (not_lt.mp hlo)]⟩

theorem clamp_inRange {v : Num} (h : v ≠ .nan) : InRange cfg (clamp cfg v) :=
  (clamp_cases hv v).resolve_left fun hn => h hn.1

theorem inRange_of_clamp_ne_nan {v : Num} (h : clamp cfg v ≠ .nan) : InRange cfg (clamp cfg v) :=
  (clamp_cases hv v).resolve_left fun hn => h hn.2

theorem clamp_clamp (v : Num) : clamp cfg (clamp cfg v) = clamp cfg v := by
  rcases clamp_cases hv v with ⟨rfl, hn⟩ | hr
  · rw [hn, hn]
  · exact clamp_of_inRange hv hr

omit hv in
theorem InRange.not_flt_lo {v : Num} (h : InRange cfg v) : ¬ flt v (.of cfg.pwMin) := by
  obtain ⟨q, m, rfl, hlo, -⟩ := h
  simpa using hlo

omit hv in
theorem InRange.not_hi_flt {v : Num} (h : InRange cfg v) : ¬ flt (.of cfg.pwMax) v := by
  obtain ⟨q, m, rfl, -, hhi⟩ := h
  simpa using hhi

/-- Saturation keeps the order. An infinity goes to a bound, and every other result lies on its inner side. -/
theorem clamp_mono {v w : Num} (hvn : v ≠ .nan) (hwn : w ≠ .nan) (h : ¬ flt w v) :
    ¬ flt (clamp cfg w) (clamp cfg v) := by
  have hv' := clamp_inRange hv hvn
  have hw' := clamp_inRange hv hwn
  match v, w with
  | .nan, _ => exact absurd rfl hvn
  | _, .nan => exact absurd rfl hwn
  | .inf true, _ => rw [clamp_inf hv true]; exact hw'.not_flt_lo
  | _, .inf false => rw [clamp_inf hv false]; exact hv'.not_hi_flt
  | .inf false, .inf true => exact absurd rfl h
  | .inf false, .fin _ _ => exact absurd rfl h
  | .fin _ _, .inf true => exact absurd rfl h
  | .fin q m, .fin r n =>
    obtain ⟨_, hq⟩ := clamp_fin_eq_max_min hv q m
    obtain ⟨_, hr⟩ := clamp_fin_eq_max_min hv r n
    have hle : q ≤ r := by simpa using h
    rw [hq, hr, flt_fin, decide_eq_true_iff, not_lt]
    exact max_le_max_left _ (min_le_min_right _ hle)
end

/-- Settles O32. -/
theorem clampProperties : Obligations.ClampProperties := by
  intro cfg hv
  have hr : (cfg.pwMin : ℚ) ≤ cfg.pwMax := by exact_mod_cast (validConfig hv).range
  refine ⟨fun v => clamp_inRange hv, fun v => clamp_of_inRange hv, clamp_clamp hv,
    fun v w => clamp_mono hv, fun q m hq => ?_, fun q m hq => ?_, clamp_inf hv false, clamp_inf hv true, clamp_nan cfg⟩
  · have h := clamp_fin_eq_max_min hv q m
    rwa [max_eq_left ((min_le_left ..).trans hq)] at h
  · have h := clamp_fin_eq_max_min hv q m
    rwa [min_eq_right hq, max_eq_right hr] at h

/-- The configuration of a channel is the entry of the configured list. -/
theorem cfg_channel_of_getElem? {cfg : Config} {c : Fin cfg.nch} {kc : ChannelConfig}
    (h : cfg.channels[c.val]? = some kc) : cfg.channel c = kc :=
  (List.getElem?_eq_some_iff.mp h).2

/-- The label of a saturation, by whether it changes its value (R93). -/
theorem rangeLabels_eq {cfg : Config} (hv : cfg.valid) (v : Num) :
    rangeLabels cfg v = if clamp cfg v = v then [] else [.rangeClamp] := by
  by_cases h : clamp cfg v = v
  · rw [rangeLabels, if_pos h, if_neg (fun hc => (clamps_iff hv v).mp hc h)]
  · rw [rangeLabels, if_neg h, if_pos ((clamps_iff hv v).mpr h)]

/-- Settles O33: it is `execChStep_eq`, with the position's cast a width in range (`trunc_inRange`). -/
theorem chStepResult : Obligations.ChStepResult := by
  intro s c k kc p hv hk hkc t pid sum pos
  have hticked : s.ticked p c = tickedChannel s.cfg (p.get kc.spSel) k := by
    rw [State.ticked, channel_of_getElem? hk, cfg_channel_of_getElem? hkc]
  have hpos : (s.ticked p c).chan.currentPosition = pos := by rw [hticked]; rfl
  have hexec := execChStep_eq hv c p
  rw [hpos] at hexec
  refine ⟨fun hne => ?_, fun hnan => hexec.trans (if_pos hnan)⟩
  obtain ⟨w, (hw : trunc pos = some (w : ℤ)), hlo, hhi, -⟩ := trunc_inRange hv (inRange_of_clamp_ne_nan hv hne)
  have hrecord : s.ticked p c =
      { pid := pid
        chan := { currentPosition := pos, targetPosition := t, velocity := pid.lastOutput }
        pulse := some (BitVec.ofNat 16 w) } := by
    rw [hticked, tickedChannel, hw, Option.map_some, BitVec.ofInt_natCast]
  have hlabels : s.tickedLabels p c = (if t = p.get kc.spSel then [] else [.rangeClamp])
      ++ (if pos = sum then [] else [.rangeClamp]) := by
    rw [State.tickedLabels, hrecord, channel_of_getElem? hk, cfg_channel_of_getElem? hkc, rangeLabels_eq hv,
      rangeLabels_eq hv]
  refine ⟨w, hw, hlo, hhi, (List.length_set ..).trans s.sized, ?_⟩
  refine (hexec.trans (if_neg hne)).trans (congrArg Host.Outcome.next ?_)
  refine State.eq_of_fields rfl rfl rfl rfl (congrArg (s.channels.set c.val) hrecord) rfl ?_ ?_ rfl
  · simp [hw, channelNumber]
  · simp [hlabels]

/-- Settles O34: it is the loop's equation `stepChannels_spec`, with every channel left to do. -/
theorem tickServesEveryChannelOnce : Obligations.TickServesEveryChannelOnce := by
  intro s hv
  exact stepChannels_spec s.acc (allChannels s.cfg.nch) s.cfg.channels [] s.channels [] s hv rfl rfl rfl
    (consecutive_allChannels _)

/-- A `CH.STEP` that answers a next state was on a channel of the bank, and has written that channel's
records and the model's own record of outputs and labels. -/
theorem execChStep_next {s t : State} {c : ChannelId} {p : Setpoints}
    (h : execChStep c p s = .next t) (hv : s.cfg.valid) : ∃ (i : Fin s.cfg.nch) (os : List Output) (ls : List Anomaly),
      c = ⟨s.cfg.nch, i⟩ ∧ t = { s.setChannel i (s.ticked p i) with out := os, labels := ls } := by
  cases hi : s.index? c with
  | none => rw [execChStep, hi] at h; cases h
  | some i =>
    obtain rfl := index?_eq_some.mp hi
    rw [execChStep_eq hv] at h
    split at h
    · cases h
    · exact ⟨i, _, _, rfl, (Host.Outcome.next.inj h).symm⟩

/-- What a tick makes of a channel does not depend on the records of another, nor on what is recorded. -/
theorem ticked_setChannel_ne (s : State) {i j : Fin s.cfg.nch} (h : i ≠ j) (k : Channel) (os : List Output)
    (ls : List Anomaly) (p : Setpoints) :
    State.ticked { s.setChannel i k with out := os, labels := ls } p j = s.ticked p j :=
  congrArg (tickedChannel s.cfg _) (channel_setChannel_ne s i k h)

/-- Two `CH.STEP` on different channels, one after the other, write the two records that each makes of the
first state. -/
theorem chStep_chStep_next {s t : State} {c d : ChannelId} {p : Setpoints} (hv : s.cfg.valid) (hne : c ≠ d)
    (h : andThen (execChStep c p s) (execChStep d p) = .next t) :
    ∃ (i j : Fin s.cfg.nch) (os : List Output) (ls : List Anomaly), c = ⟨s.cfg.nch, i⟩ ∧ d = ⟨s.cfg.nch, j⟩ ∧
      t = { State.setChannel (s.setChannel i (s.ticked p i)) j (s.ticked p j) with out := os, labels := ls } := by
  obtain ⟨u, hu, ht⟩ := andThen_eq_next.mp h
  obtain ⟨i, os, ls, rfl, rfl⟩ := execChStep_next hu hv
  obtain ⟨j, os', ls', rfl, rfl⟩ := execChStep_next ht hv
  have hij : i ≠ j := fun e => hne (congrArg (ChannelId.mk s.cfg.nch) e)
  rw [ticked_setChannel_ne s hij]
  exact ⟨i, j, os', ls', rfl, rfl, rfl⟩

/-- Settles O35: the writes to the two records commute. -/
theorem channelOrderDoesNotMatter : Obligations.ChannelOrderDoesNotMatter := by
  intro s t u c d p hv hne ht hu
  obtain ⟨i, j, _, _, rfl, rfl, rfl⟩ := chStep_chStep_next hv hne ht
  obtain ⟨j', i', _, _, hj, hi, rfl⟩ := chStep_chStep_next hv hne.symm hu
  cases hj
  cases hi
  have hij : i ≠ j := fun e => hne (congrArg (ChannelId.mk s.cfg.nch) e)
  exact congrArg (fun v : State => { v with out := [], labels := [] }) (setChannel_comm s i _ _ hij)

/-- The position that a tick computes is a value of the format, where the records have the invariant. -/
theorem ChannelInv.ticked_position_isValue {cfg : Config} (hv : cfg.valid) {kc : ChannelConfig}
    (hkc : kc ∈ cfg.channels) {raw : Num} (hraw : isValue cfg.format raw) {k : Channel} (h : ChannelInv cfg kc k) :
    isValue cfg.format (tickedChannel cfg raw k).chan.currentPosition := by
  obtain ⟨hgp, hgi, hgd⟩ := h.gains
  obtain ⟨hp, -, hi, -, hd, -⟩ := (validConfig hv).gains kc hkc
  obtain ⟨-, -, hout⟩ := pidUpdate_isValue hv (hgp ▸ hp) (hgi ▸ hi) (hgd ▸ hd) h.integral_value
    (h.previous_is_error ▸ h.error_value) (clamp_isValue hraw) h.position_value
  exact clamp_isValue (fadd_isValue h.position_value hout)

theorem Inv.ticked_position_isValue {s : State} (hi : Inv s) {k : Channel} (hk : k ∈ tickedChannels s) :
    isValue s.cfg.format k.chan.currentPosition := by
  rw [tickedChannels, ← List.map_uncurry_zip_eq_zipWith] at hk
  obtain ⟨⟨kc, k₀⟩, hmem, rfl⟩ := List.mem_map.mp hk
  have hinv : ChannelInv s.cfg kc k₀ := (List.forall₂_iff_zip.mp hi.channels).2 hmem
  exact hinv.ticked_position_isValue hi.config_valid (List.of_mem_zip hmem).1 (hi.get_isValue _)

/-- Exact arithmetic has no NaN (R81). -/
theorem format_ne_exact_of_nan {f : NumFormat} (h : isValue f .nan) : f ≠ .exact := by
  rintro rfl
  cases h

/-- A tick completes, or stops at a NaN position, which exact arithmetic does not have (R96). -/
theorem Inv.tick_outcome {s : State} (hi : Inv s) :
    (∃ t, execTick s = .next t) ∨ (execTick s = .fault .nanAtCast ∧ s.cfg.format ≠ .exact) := by
  by_cases hn : ∃ k ∈ tickedChannels s, k.chan.currentPosition = .nan
  · obtain ⟨k, hk, hnan⟩ := hn
    exact .inr ⟨(tickServesEveryChannelOnce s hi.config_valid).2 ⟨k, hk, hnan⟩,
      format_ne_exact_of_nan (hnan ▸ hi.ticked_position_isValue hk)⟩
  · push Not at hn
    exact .inl (execTick_completes hi.config_valid hn)

/-- Settles O38, by the event that the step serves. -/
theorem onlyStopIsNanOnTick : Obligations.OnlyStopIsNanOnTick := by
  intro s hi
  have hserved (es : List Event) : Inv (served s es) :=
    hi.of_fields rfl hi.acc_x_value hi.acc_y_value hi.channels
  rw [step_eq, if_pos hi.config_valid]
  split
  next => exact .inl ⟨_, rfl⟩
  next b es _ =>
    obtain ⟨_, _, _, hr⟩ := execRx_next b (served s es)
    exact .inl ⟨_, hr⟩
  next es hs => exact (hserved es).tick_outcome.imp_right fun ⟨hf, he⟩ => ⟨hf, ⟨es, hs⟩, he⟩
  next => exact .inl ⟨_, rfl⟩
  next => exact .inl ⟨_, rfl⟩

end Sys2Proof.Machine
end

section
/-!
SUPPORT. The boundary operations (R105 to R111): what `SET_PULSE` writes for any integers, that a `SNAP`
leaves no trace in the events after it, and which events leave the channel records alone.
-/

namespace Sys2Proof.Machine

/-- The integer saturation is that of the integers' order, and its result is a width (R107). -/
theorem clampi_eq_max_min {cfg : Config} (hv : cfg.valid) (w : ℤ) :
    ∃ v : ℕ, clampi cfg w = v ∧ (v : ℤ) = max (cfg.pwMin : ℤ) (min w cfg.pwMax) ∧ v ≤ 65535 := by
  have hrange := (validConfig hv).range
  have hwidth := (validConfig hv).width
  have hclamp : clampi cfg w = max (cfg.pwMin : ℤ) (min w cfg.pwMax) := by
    rw [clampi]
    split_ifs <;> omega
  refine ⟨(clampi cfg w).toNat, ?_, ?_, ?_⟩ <;> omega

/-- `SET_PULSE` on a channel number outside the bank notes its label and does nothing else (R106). -/
theorem execSetPulse_outside {s : State} {ch : ℤ} (h : ch < 1 ∨ (s.cfg.nch : ℤ) < ch) (w : ℤ) :
    execSetPulse ch w s = .next (s.note .badChannel) :=
  dif_neg (by omega)

/-- Settles O41: outside the bank it is `execSetPulse_outside`; inside, `execSetPulse_channel`, with the
saturated width of `clampi_eq_max_min`. -/
theorem setPulseContract : Obligations.SetPulseContract := by
  intro s ch w hv
  refine ⟨fun hout => execSetPulse_outside hout w, ?_⟩
  rintro c k rfl hk
  have hc : c < s.cfg.nch := s.sized ▸ (List.getElem?_eq_some_iff.mp hk).1
  have hrecord : s.channel ⟨c, hc⟩ = k := channel_of_getElem? hk
  obtain ⟨v, hclamp, hmaxmin, hwidth⟩ := clampi_eq_max_min hv w
  have hexec := execSetPulse_channel s ⟨c, hc⟩ w
  rw [hclamp, BitVec.ofInt_natCast] at hexec
  refine ⟨v, hmaxmin, hwidth, (List.length_set ..).trans s.sized, ?_⟩
  refine hexec.trans (congrArg Host.Outcome.next ?_)
  refine State.eq_of_fields rfl rfl rfl rfl ?_ rfl rfl ?_ rfl
  · rw [← hrecord]; rfl
  · refine congrArg (s.labels ++ ·) ?_
    simp [eq_comm (a := w)]

/-- Settles O42. -/
theorem snapReturnsRecord : Obligations.SnapReturnsRecord := fun _ => rfl

/-- No event writes the configuration. -/
theorem serve_cfg {e : Event} {s t : State} (h : serve e s = .next t) : t.cfg = s.cfg := by
  rw [serve] at h
  split at h
  · exact (exec_sameParameters h).1
  · cases h

/-- No event trace writes the configuration (R23). -/
theorem deliver_cfg {es : List Event} {s t : State} (h : deliver es s = .next t) : t.cfg = s.cfg := by
  induction es generalizing s with
  | nil => cases h; rfl
  | cons e es ih =>
    rw [deliver_cons_serve] at h
    obtain ⟨u, hu, ht⟩ := andThen_eq_next.mp h
    exact (ih ht).trans (serve_cfg hu)

section
variable {s : State} (hv : s.cfg.valid)
include hv

/-- A `SNAP` hands the rest of the trace a state that differs in the model's own record only. -/
theorem deliver_snap (fs : List Event) : deliver (.snap :: fs) s =
    deliver fs ((served s []).emit (.snapshot s.acc (s.channels.map Channel.chan))) := by
  rw [deliver_cons_serve, serve, if_pos hv]
  rfl

/-- A `SNAP` before another event leaves nothing behind: outputs and labels start empty for each event. -/
theorem deliver_snap_cons (e : Event) (fs : List Event) : deliver (.snap :: e :: fs) s = deliver (e :: fs) s := by
  rw [deliver_snap hv, deliver_cons_serve, deliver_cons_serve]
  rfl

/-- A `SNAP` at the head of a trace changes nothing of the outcome but, at its end, what was recorded. -/
theorem deliver_snap_sameHardware (fs : List Event) :
    OutcomeRel SameHardware (deliver (.snap :: fs) s) (deliver fs s) := by
  cases fs with
  | nil => rw [deliver_snap hv]; rfl
  | cons e fs => exact OutcomeRel.of_eq (R := SameHardware) (fun _ => rfl) (deliver_snap_cons hv e fs)

end

/-- Settles O43: the trace before the `SNAP` keeps the configuration valid, and the rest is served alike
from the state it reaches. -/
theorem insertedSnapIsInvisible : Obligations.InsertedSnapIsInvisible := by
  intro s e es fs hv
  simp only [deliver_append]
  cases hd : deliver es s with
  | next u =>
    have hu : u.cfg.valid := deliver_cfg hd ▸ hv
    exact ⟨deliver_snap_sameHardware hu fs, deliver_snap_cons hu e fs⟩
  | fault r => exact ⟨rfl, rfl⟩
  | refused r => exact ⟨rfl, rfl⟩

/-- Settles O46: a byte writes the receiver's registers only (`receiverTouchesOnlyItsOwn`), and a `SNAP`
none. -/
theorem channelsHoldBetweenTicks : Obligations.ChannelsHoldBetweenTicks := by
  intro s t e es hs htick hreset h
  cases e with
  | rx b => exact (receiverTouchesOnlyItsOwn s t b es hs h).1
  | snap => cases exec_of_step hs h; rfl
  | tick => exact absurd rfl htick
  | reset => exact absurd rfl hreset

end Sys2Proof.Machine
end

section
/-!
SUPPORT. No feedback (R115, R116, R119): what was recorded before an operation changes no effect of it, and
none notes a missed deadline. A byte and a tick that are pending together commute unless the byte commits (R125).
-/

namespace Sys2Proof.Machine

/-- A machine is what it would be with nothing recorded, with its record put back. -/
theorem eq_put_served (s : State) : s = (served s s.input).put s.input s.out s.labels := by
  simp [State.put, served]

/-- Machines that differ in what was recorded perform an operation alike (R115). -/
theorem exec_sameHardware (i : Instr) {s t : State} (h : SameHardware s t) :
    OutcomeRel SameHardware (exec i s) (exec i t) := by
  have hserved : served s s.input = served t t.input := h
  have hinput : s.input = t.input := by simpa using congrArg State.input hserved
  rw [eq_put_served s, eq_put_served t, exec_put, exec_put, hserved, hinput]
  cases exec i (served t t.input) <;> rfl

/-- Settles O52. -/
theorem labelsAreNeverRead : Obligations.LabelsAreNeverRead :=
  fun i _ _ _ => exec_sameHardware i rfl

/-- `t` has the label `DEADLINE_MISS` only where `s` has it. -/
def NoDeadlineNoted (s t : State) : Prop := .deadlineMiss ∉ s.labels → .deadlineMiss ∉ t.labels

theorem NoDeadlineNoted.note {a : Anomaly} (ha : a ≠ .deadlineMiss) (s : State) : NoDeadlineNoted s (s.note a) :=
  fun hs => by simp [hs, ha.symm]

theorem ChannelsChanged.noDeadlineNoted {s t : State} (h : ChannelsChanged s t) : NoDeadlineNoted s t := by
  obtain ⟨_, _, _, _, rfl, -, hls⟩ := h
  exact fun hs => List.mem_append.not.mpr (not_or.mpr ⟨hs, hls⟩)

theorem execRx_noDeadlineNoted {b : Byte} {s t : State} (h : execRx b s = .next t) : NoDeadlineNoted s t := by
  rcases execRx_cases b s with ⟨-, -, hr⟩ | ⟨-, -, hr⟩ | ⟨-, hr⟩ | ⟨-, hr⟩ | ⟨-, hr⟩ | ⟨-, hr⟩ | ⟨-, hr⟩ |
    ⟨-, -, -, hr⟩ | ⟨-, -, -, hr⟩ | ⟨-, -, hr⟩ <;> cases hr.symm.trans h
  · exact id
  · exact .note (by decide) s
  iterate 6 exact id
  · exact NoDeadlineNoted.note (a := .malformedSum) (by decide) s
  · exact NoDeadlineNoted.note (a := .malformedTerm) (by decide) s

theorem execRxAll_noDeadlineNoted {bs : List Byte} {s t : State} (h : execRxAll bs s = .next t) :
    NoDeadlineNoted s t := by
  induction bs generalizing s with
  | nil => cases h; exact id
  | cons b bs ih =>
    obtain ⟨u, hu, ht⟩ := andThen_eq_next.mp h
    exact fun hs => ih ht (execRx_noDeadlineNoted hu hs)

/-- Settles O53: the operations on channel records note range and channel labels only, and the receiver's note
those of a malformed frame. -/
theorem noDeadlineIsEverNoted : Obligations.NoDeadlineIsEverNoted := by
  intro i s t h
  cases i with
  | pidCompute c target current => exact (execPidCompute_frame h).noDeadlineNoted
  | tick => exact (execTick_frame h).noDeadlineNoted
  | chStep c p => exact (execChStep_frame h).noDeadlineNoted
  | setPulse ch w =>
    obtain ⟨_, hu, hc⟩ := execSetPulse_frame ch w s
    cases hu.symm.trans h
    exact hc.noDeadlineNoted
  | frame7 xHi xLo yHi yLo cs => exact execRxAll_noDeadlineNoted h
  | rxWs1Skip b => cases h; exact NoDeadlineNoted.note (by decide) s
  | rxWs2Badsum => cases h; exact NoDeadlineNoted.note (a := .malformedSum) (by decide) s
  | rxWs2Abort b => cases h; exact NoDeadlineNoted.note (a := .malformedTerm) (by decide) s
  | rxWs1Sync | rxB0 b | rxB1 b | rxB2 b | rxB3 b | rxB4 b | rxWs2Commit | snap | reset => cases h; exact id

/-- Only a commit changes the accumulators among the receiver's registers (R78). -/
theorem byte_acc_of_no_commit {r : Receiver} {b : Byte} (h : decodeByte r.fsm r.scratch b ≠ .rxWs2Commit)
    (f : NumFormat) : (r.byte f b).acc = r.acc := by
  obtain ⟨fsm, k, a⟩ := r
  cases fsm with
  | waitSync2 =>
    refine if_neg ?_
    rintro ⟨rfl, hk⟩
    exact h (decodeByte_commit hk)
  | waitSync1 | b0 | b1 | b2 | b3 | b4 => rfl

/-- A tick reads the accumulators alone of the receiver's registers, and writes none (R36, R101). -/
theorem execTick_setReceiver {s : State} (hv : s.cfg.valid) {r : Receiver} (hr : r.acc = s.acc) :
    execTick (s.setReceiver r) = mapNext (State.setReceiver r) (execTick s) := by
  obtain ⟨f, k, a⟩ := r
  obtain rfl : a = s.acc := hr
  exact stepChannels_withReceiver f k s.acc hv s.acc _

/-- A tick delivered first: it is served on the state with nothing recorded. -/
theorem deliver_tick {s : State} (hv : s.cfg.valid) (es : List Event) :
    deliver (.tick :: es) s = andThen (execTick (served s [])) (deliver es) := by
  rw [deliver_cons_serve, serve, if_pos hv]
  rfl

/-- A byte that does not commit, and then a tick: the tick's outcome, with the byte's effect on the receiver's
registers. -/
theorem deliver_rx_tick {s : State} (hv : s.cfg.valid) {b : Byte}
    (hb : decodeByte s.fsm s.scratch b ≠ .rxWs2Commit) : deliver [.rx b, .tick] s =
      andThen (mapNext (State.setReceiver (s.receiver.byte s.cfg.format b)) (execTick (served s []))) (deliver []) := by
  have hacc : (s.receiver.byte s.cfg.format b).acc = s.acc := byte_acc_of_no_commit hb _
  obtain ⟨_, hrx⟩ := execRx_receiver b (served s [])
  rw [deliver_rx hv, hrx, ← execTick_setReceiver (s := served s []) hv hacc]
  exact deliver_tick (s := (served s []).setReceiver _) hv []

/-- A tick, and then a byte: the byte has the effect on the receiver's registers that it has before the tick. -/
theorem deliver_rx_after_tick {s t : State} (hv : s.cfg.valid) (ht : execTick (served s []) = .next t) (b : Byte) :
    ∃ os ls, deliver [.rx b] t =
      .next { t.setReceiver (s.receiver.byte s.cfg.format b) with input := [], out := os, labels := ls } := by
  obtain ⟨_, _, _, _, rfl, -⟩ := execTick_frame ht
  refine deliver_bytes ?_ [b]
  exact hv

/-- Settles O49: the tick leaves the receiver's registers as they were, so the byte has the same effect on them
in either order. -/
theorem byteAndTickCommute : Obligations.ByteAndTickCommute := by
  intro s b hb
  by_cases hv : s.cfg.valid
  · rw [deliver_rx_tick hv hb, deliver_tick hv]
    cases ht : execTick (served s []) with
    | next t =>
      obtain ⟨_, _, hrx⟩ := deliver_rx_after_tick hv ht b
      rw [andThen_next, hrx]
      rfl
    | fault r => rfl
    | refused r => rfl
  · rw [deliver_cons_serve, deliver_cons_serve, serve, serve, if_neg hv, if_neg hv]
    rfl

end Sys2Proof.Machine
end

section
/-!
SUPPORT. Reset and hazards: a configuration outside R141 is refused (U15), a channel index names a channel of
its bank (R152), and what a `RESET` event leaves (R135).
-/

namespace Sys2Proof.Machine

/-- A configuration outside R141 is refused, whatever the events to come (U15). -/
theorem step_of_not_valid {s : State} (h : ¬ s.cfg.valid) : step s = .refused .badConfiguration := by
  rw [step_eq, if_neg h]

/-- Settles O12: each clause denies one thing that `validConfig` says of a configuration inside R141. -/
theorem badConfigurationIsRefused : Obligations.BadConfigurationIsRefused := by
  intro s hbad
  refine step_of_not_valid fun hv => ?_
  have hvalid := validConfig hv
  rcases hbad with hnone | hempty | hwide | hpos | ⟨k, hk, hgain⟩ | ⟨l, hl, hlimit⟩ | hposValue | hspValue |
    ⟨k, hk, hgain⟩ | ⟨l, hl, hlimit⟩
  · exact hvalid.channels hnone
  · exact hempty.not_ge hvalid.range
  · exact hwide.not_ge hvalid.width
  · exact hpos hvalid.pos_range
  · obtain ⟨-, hp, -, hi, -, hd⟩ := hvalid.gains k hk
    exact hgain.elim (· hp) (·.elim (· hi) (· hd))
  · obtain ⟨q, m, rfl, hq, -⟩ := hvalid.limit l hl
    rcases hlimit with hinf | ⟨_, _, ⟨⟩, hneg⟩
    · exact hinf rfl
    · exact hneg.not_ge hq
  · exact hposValue hvalid.pos_value
  · exact hspValue hvalid.sp_value
  · obtain ⟨hp, -, hi, -, hd, -⟩ := hvalid.gains k hk
    exact hgain.elim (· hp) (·.elim (· hi) (· hd))
  · obtain ⟨_, _, -, -, -, hvalue⟩ := hvalid.limit l hl
    exact hlimit hvalue

/-- The list of all channels holds the indices of its bank's size, and no other. -/
theorem mem_allChannels {n : ℕ} {c : ChannelId} : c ∈ allChannels n ↔ c.nch = n := by
  rw [allChannels, List.mem_map]
  constructor
  · rintro ⟨i, -, rfl⟩
    rfl
  · rintro rfl
    exact ⟨c.index, List.mem_finRange _, rfl⟩

/-- The channels of a bank are numbered from 1, in ascending order (R6, R92). -/
theorem allChannels_map_channelNumber (n : ℕ) :
    (allChannels n).map (fun c => channelNumber c.index) = List.range' 1 n := by
  calc (allChannels n).map (fun c => channelNumber c.index)
      = ((List.finRange n).map Fin.val).map (1 + ·) := by
        rw [allChannels, List.map_map, List.map_map]
        exact List.map_congr_left fun i _ => Nat.add_comm i.val 1
    _ = List.range' 1 n := by rw [List.map_coe_finRange_eq_range, List.range'_eq_map_range]

/-- The record of a channel of the bank stands in the list at the channel's position. -/
theorem getElem?_channels (s : State) (c : Fin s.cfg.nch) : s.channels[c.val]? = some (s.channel c) :=
  List.getElem?_eq_getElem _

/-- The configuration of a channel of the bank stands in the configured list at the channel's position. -/
theorem getElem?_cfg_channels (cfg : Config) (c : Fin cfg.nch) : cfg.channels[c.val]? = some (cfg.channel c) :=
  List.getElem?_eq_getElem _

/-- Settles O23: an index of the bank's size is one of its positions, on which `PID.COMPUTE` answers and `CH.STEP`
is not refused; an index of another size names none. -/
theorem channelIndexIsBounded : Obligations.ChannelIndexIsBounded := by
  intro s
  refine ⟨fun _ => mem_allChannels, allChannels_map_channelNumber _,
    fun c => ⟨_, _, getElem?_channels s c, getElem?_cfg_channels s.cfg c⟩, fun c target current p => ⟨?_, ?_⟩⟩
  · obtain ⟨n, i⟩ := c
    rintro rfl
    exact ⟨⟨_, execPidCompute_own s i target current⟩, execChStep_ne_refused s i p⟩
  · exact fun hother => ⟨execPidCompute_other hother target current, execChStep_other hother p⟩

/-- Settles O44: the channel records after a reset are those of `Channel.atReset`, and the scratch bytes are the
next free ones. -/
theorem resetResult : Obligations.ResetResult :=
  fun s => ⟨freeScratch s.free, List.length_map .., rfl⟩

end Sys2Proof.Machine
end
